-- ==== Sys2Proof/Word.lean ====
section
/-! DEFINITION. The widths of the block's words: bytes and lanes (R6, R7), the 32-bit value, the request word
(R40) and the response word (R42). -/

namespace Sys2Proof

/-- A byte, a symbol code or one lane (R7, R40). -/
abbrev Byte := BitVec 8

/-- A raw chunk read as one big-endian unsigned value (R29). -/
abbrev Word32 := BitVec 32

/-- Five 8-bit lanes, lane 0 in bits 39..32: `din` of a request, `dout` of a response (R40, R42). -/
abbrev Lanes := BitVec 40

/-- A request word (R40): `op` in bit 40, `din` in bits 39..0. -/
abbrev ReqWord := BitVec 41

/-- A response word (R42): `ovf` in bit 41, `inv` in bit 40, `dout` in bits 39..0. -/
abbrev RspWord := BitVec 42

end Sys2Proof
end

