-- ==== Sys2Proof/Config.lean ====
section
/-! DEFINITION. What is fixed for the block (R4), and the parameters and free values the spec leaves open (R5 and
93_implementation_defined.md Part 1). A free value is an opaque constant: nothing can evaluate it or prove a value
of it, so a claim that mentions one holds for every value of it. -/

namespace Sys2Proof.Config

/-- R4 `RADIX`: the number base of the encoded form. -/
def radix : Nat := 85

/-- R4 `RAW_LEN`: bytes in a raw chunk. -/
def rawLen : Nat := 4

/-- R4 `ENC_LEN`: symbols in an encoded chunk. -/
def encLen : Nat := 5

/-- R4 `RAW_MAX`: the largest raw chunk value, 2^32 - 1. -/
def rawMax : Nat := 4294967295

/-- R4 `ENC_SPACE`: the number of 5-digit base-85 values, 85^5. -/
def encSpace : Nat := 4437053125

/-- R4 `PAD_INDEX`: the index of the Padding Symbol in the Alphabet. -/
def padIndex : Nat := 84

/-- R5 `DEC_OVF`: the 32-bit data of `DEC` when the decoded value is 2^32 or more, a function of that value alone
(R63, D8, U3). Uninterpreted: log 4. -/
opaque decOvf : Nat → Word32

/-- R5: the default of `DEC_OVF`, `v mod 2^32`. The block's meaning does not use it; a reader may instantiate
`decResponseWith` with it, and R63 states facts about it. -/
def decOvfDefault (v : Nat) : Word32 := BitVec.ofNat 32 v

/-- R5 `LATENCY`: clock cycles between request and response. No rule reads it and nothing here does (R112, D14,
U15): log 5. -/
opaque latency : Nat

/-- What the response outputs show when no request asked for it (R18 last row, U14): any value, one for each index.
Log 3. -/
opaque idleOutputs : Nat → RspWord

/-- R5 `REJECTED_WRITE_COUNT` (D18, U7), host layer: true where it is `len(bytes)`, false where it is 0. Log 11. -/
opaque rejectedCountIsLength : Bool

/-- R76, R86, host layer: true where the host skips the `DEC` transaction of a trailing group of one symbol, false
where it makes it and discards the result. Log 13. -/
opaque skipsOneSymbolGroup : Bool

/-- The content of the Carry Buffer after a failure (R80, U9), host layer: any value. Log 12. -/
opaque carryAfterFailure : Nat → List Byte

/-- R89, host layer: whether a strict decoder's "invalid symbol" failure is remembered as the sticky error. The spec
does not say. Log 14. -/
opaque strictFailureSticks : Bool

/-- R5 `STRICT`: its default, false. -/
def strictDefault : Bool := false

end Sys2Proof.Config
end

