-- ==== Sys2Proof/Syntax.lean ====
section
/-! DEFINITION. The operations of the block, one constructor per row of spec/opcode_table.json (R48), with the lanes
of the request word as operands (R41). -/

namespace Sys2Proof

/-- The complete operation set (R1, R48). -/
inductive Instr where
  /-- `ENC` (R55): lane 0 is `pad` (R50), lanes 1 to 4 are the raw chunk in sequence order (R41). -/
  | enc (pad b0 b1 b2 b3 : Byte)
  /-- `DEC` (R60): lanes 0 to 4 are the encoded chunk's codes in text order (R41). -/
  | dec (c0 c1 c2 c3 c4 : Byte)
  deriving DecidableEq, Repr

end Sys2Proof
end

