-- ==== Sys2Proof/WellFormed.lean ====
section
/-! DEFINITION. The checks on what is presented to the block. R49: no request word is illegal, so every term of
`Instr` is well formed (log 17). The checks that do refuse something stand here too: a number that is no request
word (R40), a non-canonical `ENC` request (R50), a number that is no digit (R9), a group that is no chunk (R31). -/

namespace Sys2Proof

/-- Every instruction is well formed: R49, "no request word is illegal, reserved, a hint or custom". -/
def Instr.wellFormed (i : Instr) : Bool :=
  match i with
  | .enc _ _ _ _ _ => true
  | .dec _ _ _ _ _ => true

/-- R50: the canonical encoding of an `ENC` request has `pad = 0`. A host should present it; the block does not
require it. -/
def Instr.canonical (i : Instr) : Bool :=
  match i with
  | .enc pad _ _ _ _ => pad == 0#8
  | .dec _ _ _ _ _ => true

/-- A number is a request word exactly when it is below 2^41 (R40). -/
def isRequestWord (n : Nat) : Bool := decide (n < 2 ^ 41)

/-- A digit, equally an index into the Alphabet, is a natural below 85 (R9). -/
def isDigit (n : Nat) : Bool := decide (n < Config.radix)

/-- A raw chunk is exactly 4 bytes (R9, R31). -/
def isRawChunk (q : List Byte) : Bool := q.length == Config.rawLen

/-- An encoded chunk, as `DEC` takes it, is exactly 5 bytes (R9, R31); any byte value is accepted (R60). -/
def isEncodedChunk (t : List Byte) : Bool := t.length == Config.encLen

end Sys2Proof
end

