-- ==== Sys2Proof/Decode.lean ====
section
/-! DEFINITION. The fields of the request word (R40, R41), the decoder, total on every number and rejecting by name,
and the encoder written from the same layout. -/

namespace Sys2Proof

/-- `req.op`, bit 40 of a request (R40): false selects `ENC`, true `DEC` (R48). -/
def reqOp (w : ReqWord) : Bool := w.getLsbD 40

/-- `req.din`, bits 39..0 of a request (R40). -/
def reqDin (w : ReqWord) : Lanes := w.extractLsb' 0 40

/-- Lane `i` of five, lane 0 in bits 39..32 and lane 4 in bits 7..0 (R40). -/
def lane (d : Lanes) (i : Fin 5) : Byte := d.extractLsb' (32 - 8 * i.val) 8

/-- Five lanes side by side, lane 0 in the most significant bits (R40 to R42). -/
def packLanes (l0 l1 l2 l3 l4 : Byte) : Lanes := l0 ++ l1 ++ l2 ++ l3 ++ l4

/-- The operation a request word stands for: bit 40 selects it and nothing else is read to know it (R40, R41). -/
def decode (w : ReqWord) : Instr :=
  let d := reqDin w
  if reqOp w then .dec (lane d 0) (lane d 1) (lane d 2) (lane d 3) (lane d 4)
  else .enc (lane d 0) (lane d 1) (lane d 2) (lane d 3) (lane d 4)

/-- Why a number is refused before it reaches the block. -/
inductive DecodeReject where
  /-- The number has a bit above bit 40, so it is no request word (R40). Safe: the block is never given it. -/
  | notARequestWord
  deriving DecidableEq, Repr

/-- The decoder on any number (R40 writes a request as the number `op * 2^40 + din`): a number of more than 41 bits is
refused by name, every other is an operation (R49). -/
def decodeRequest (n : Nat) : Except DecodeReject Instr :=
  if isRequestWord n then .ok (decode (BitVec.ofNat 41 n)) else .error .notARequestWord

/-- The request word with these fields (R40). -/
def requestWord (op : Bool) (d : Lanes) : ReqWord := BitVec.ofBool op ++ d

/-- The request word of an instruction (R40, R41, R48). -/
def encode (i : Instr) : ReqWord :=
  match i with
  | .enc pad b0 b1 b2 b3 => requestWord false (packLanes pad b0 b1 b2 b3)
  | .dec c0 c1 c2 c3 c4 => requestWord true (packLanes c0 c1 c2 c3 c4)

/-- The decoder on a word of the opcode table, numbered as the table numbers it, of which `nbits` bits are given. The
block's word has 41 bits (R40); a word with a higher bit set is no request word and is refused (log 16). -/
def decodeTableWord (nbits w : Nat) : Option Instr :=
  match decodeRequest (w % 2 ^ nbits) with
  | .ok i => some i
  | .error _ => none

end Sys2Proof
end

