-- ==== Sys2Proof/Machine/State.lean ====
section
/-! DEFINITION. The state, plain data. The spec gives the block no state that an operation writes (R10 to R13, R18):
what stands here is the transaction interface of R43 and R110, the requests presented and the responses delivered. -/

namespace Sys2Proof.Machine

/-- One response (R42): 40 bits of data and the two status outputs. `Response.word` is its 42-bit word. -/
structure Response where
  /-- The result, five 8-bit lanes (R42). -/
  dout : Lanes
  /-- Invalid symbol (R14). -/
  inv : Bool
  /-- Overflow (R15). -/
  ovf : Bool
  deriving DecidableEq, Repr

/-- The block with its transaction interface. -/
structure State where
  /-- The requests presented and not answered yet, oldest first (R43, R106). -/
  pending : List ReqWord
  /-- The requests answered, in the order they were accepted (R110). The model's own history: log 1. -/
  answered : List ReqWord
  /-- The responses delivered, in order; the k-th answers the k-th of `answered` (R110). Log 1. -/
  responses : List Response
  /-- The response that stands on the outputs because a request asked for it; none while nobody asked (R18). -/
  onOutputs : Option Response
  /-- The index of the free value that the outputs show while nobody asked; the model's own field: log 3. -/
  idleIndex : Nat
  deriving DecidableEq, Repr

/-- The faults of the block: none. R90: "The list of exception causes is empty". Nothing raises one, so the type has
no constructor. Log 18. -/
inductive Fault
  deriving DecidableEq, Repr

/-- The refusals of the model. -/
inductive Refusal where
  /-- Raised by an arm of `exec` whose instruction has no meaning in this model. No arm raises it: both operations
  have their meaning. Safe where it is raised: a run stops. -/
  | notModelled (mnemonic : String)
  deriving DecidableEq, Repr

/-- Right after reset (R18, R105, R106): no request is pending, nobody has asked for what the outputs show. The
histories begin empty and the free index at 0, the model's choice: log 1, log 3. The two tables are constants and the
same before, during and after reset (R18). -/
def State.reset : State :=
  { pending := [], answered := [], responses := [], onOutputs := none, idleIndex := 0 }

end Sys2Proof.Machine
end

