-- ==== Sys2Proof/Machine/Tables.lean ====
section
/-! DEFINITION. The block's only memory: the two read-only tables and their contents (R16, R17, R25 to R28), their
reads (R8, R36, R37), and the derivation of the second from the first (R107). Both are constants: no operation writes
them (R28) and no reset changes them (R18), so they are no fields of State (log 6). -/

namespace Sys2Proof.Machine

/-- R26, indices 0 to 9: the digits. -/
def alphaCodes0 : List Byte :=
  [0x30#8, 0x31#8, 0x32#8, 0x33#8, 0x34#8, 0x35#8, 0x36#8, 0x37#8, 0x38#8, 0x39#8]

/-- R26, indices 10 to 21: `a` to `l`. -/
def alphaCodes1 : List Byte :=
  [0x61#8, 0x62#8, 0x63#8, 0x64#8, 0x65#8, 0x66#8, 0x67#8, 0x68#8, 0x69#8, 0x6a#8, 0x6b#8, 0x6c#8]

/-- R26, indices 22 to 35: `m` to `z`. -/
def alphaCodes2 : List Byte :=
  [0x6d#8, 0x6e#8, 0x6f#8, 0x70#8, 0x71#8, 0x72#8, 0x73#8, 0x74#8, 0x75#8, 0x76#8, 0x77#8, 0x78#8, 0x79#8, 0x7a#8]

/-- R26, indices 36 to 47: `A` to `L`. -/
def alphaCodes3 : List Byte :=
  [0x41#8, 0x42#8, 0x43#8, 0x44#8, 0x45#8, 0x46#8, 0x47#8, 0x48#8, 0x49#8, 0x4a#8, 0x4b#8, 0x4c#8]

/-- R26, indices 48 to 61: `M` to `Z`. -/
def alphaCodes4 : List Byte :=
  [0x4d#8, 0x4e#8, 0x4f#8, 0x50#8, 0x51#8, 0x52#8, 0x53#8, 0x54#8, 0x55#8, 0x56#8, 0x57#8, 0x58#8, 0x59#8, 0x5a#8]

/-- R26, indices 62 to 73. -/
def alphaCodes5 : List Byte :=
  [0x2e#8, 0x2d#8, 0x3a#8, 0x2b#8, 0x3d#8, 0x5e#8, 0x21#8, 0x2f#8, 0x2a#8, 0x3f#8, 0x26#8, 0x3c#8]

/-- R26, indices 74 to 84; the last is the Padding Symbol `#` (R73). -/
def alphaCodes6 : List Byte :=
  [0x3e#8, 0x28#8, 0x29#8, 0x5b#8, 0x5d#8, 0x7b#8, 0x7d#8, 0x40#8, 0x25#8, 0x24#8, 0x23#8]

/-- R27, row 0x2x. -/
def dtabRow2 : List (Option (BitVec 7)) :=
  [none, some 68, none, some 84, some 83, some 82, some 72, none, some 75, some 76, some 70, some 65, none, some 63, some 62, some 69]

/-- R27, row 0x3x. -/
def dtabRow3 : List (Option (BitVec 7)) :=
  [some 0, some 1, some 2, some 3, some 4, some 5, some 6, some 7, some 8, some 9, some 64, none, some 73, some 66, some 74, some 71]

/-- R27, row 0x4x. -/
def dtabRow4 : List (Option (BitVec 7)) :=
  [some 81, some 36, some 37, some 38, some 39, some 40, some 41, some 42, some 43, some 44, some 45, some 46, some 47, some 48, some 49, some 50]

/-- R27, row 0x5x. -/
def dtabRow5 : List (Option (BitVec 7)) :=
  [some 51, some 52, some 53, some 54, some 55, some 56, some 57, some 58, some 59, some 60, some 61, some 77, none, some 78, some 67, none]

/-- R27, row 0x6x. -/
def dtabRow6 : List (Option (BitVec 7)) :=
  [none, some 10, some 11, some 12, some 13, some 14, some 15, some 16, some 17, some 18, some 19, some 20, some 21, some 22, some 23, some 24]

/-- R27, row 0x7x. -/
def dtabRow7 : List (Option (BitVec 7)) :=
  [some 25, some 26, some 27, some 28, some 29, some 30, some 31, some 32, some 33, some 34, some 35, some 79, none, some 80, none, none]

/-- R26: the codes of the 85 symbols, in index order. -/
def alphaCodes : List Byte :=
  alphaCodes0 ++ alphaCodes1 ++ alphaCodes2 ++ alphaCodes3 ++ alphaCodes4 ++ alphaCodes5 ++ alphaCodes6

/-- `ALPHA[i]` (R8, R26). The index type has 85 elements, so no index 85 to 127 can be written (R38, U16). -/
def alpha (i : Fin 85) : Byte := alphaCodes.getD i.val 0#8

/-- R27, all 256 entries in byte order: `none` is a dot, `some n` the number `n`. Rows 0x0x and 0x1x are dots, and so
are the eight rows 0x8x to 0xFx. -/
def dtabMarks : List (Option (BitVec 7)) :=
  List.replicate 32 none ++ dtabRow2 ++ dtabRow3 ++ dtabRow4 ++ dtabRow5 ++ dtabRow6 ++ dtabRow7 ++
    List.replicate 128 none

/-- The 8 bits of an entry, `DVAL ++ DIDX` (R25): a dot is `0 ++ 0`, a number `n` is `1 ++ n` (R27). -/
def dtabEntry (m : Option (BitVec 7)) : Byte :=
  match m with
  | none => 0#1 ++ 0#7
  | some n => 1#1 ++ n

/-- `DTAB[b]`, the whole entry of byte `b` (R25, R27); all 8 bits of the byte index the table (R37). -/
def dtab (b : Byte) : Byte := dtabEntry (dtabMarks.getD b.toNat none)

/-- `DIDX[b]` (R8): the index field of the entry, 7 bits. -/
def didx (b : Byte) : BitVec 7 := (dtab b).extractLsb' 0 7

/-- `DVAL[b]` (R8): the valid bit of the entry, true exactly for symbols. -/
def dval (b : Byte) : Bool := (dtab b).getLsbD 7

/-- The two address spaces (R25). -/
inductive Space where
  /-- The Alphabet ROM. -/
  | alpha
  /-- The Decode Table ROM. -/
  | dtab
  deriving DecidableEq, Repr

/-- `MemRead(space, addr, 1)` (R8) over the whole address map (R38): `ALPHA` indices 0..84 and `DTAB` indices 0..255.
Elsewhere there is no entry; no operation reads there (R31). -/
def memRead (sp : Space) (addr : Nat) : Option Byte :=
  match sp with
  | .alpha => if h : addr < 85 then some (alpha ⟨addr, h⟩) else none
  | .dtab => if addr < 256 then some (dtab (BitVec.ofNat 8 addr)) else none

/-- The derivation of the Decode Table that R107 gives: every entry 0, then for the indices of `order`, which are 0..84 in
any order, the entry of `ALPHA[i]` gets `DIDX = i`, `DVAL = 1`. It is done when the ROM is made, so no step runs it; it is
here to be compared with the literal table. -/
def buildDtab (order : List (Fin 85)) : List Byte :=
  order.foldl (fun t i => t.set (alpha i).toNat (1#1 ++ BitVec.ofNat 7 i.val)) (List.replicate 256 0#8)

end Sys2Proof.Machine
end

