-- ==== Sys2Proof/Machine/Operands.lean ====
section
/-! DEFINITION. Operand and result assembly: how a request's lanes become a value or five digits, and how a result
becomes the lanes of the response (R29, R30, R42, R44 to R47). -/

namespace Sys2Proof.Machine

/-- The value of a raw chunk: `b0*2^24 + b1*2^16 + b2*2^8 + b3` (R29, R44). -/
def rawValue (b0 b1 b2 b3 : Byte) : Nat :=
  b0.toNat * 2 ^ 24 + b1.toNat * 2 ^ 16 + b2.toNat * 2 ^ 8 + b3.toNat

/-- The weight of digit `i` of five: `85^(4-i)` (R4 "powers", R30). -/
def weight (i : Fin 5) : Nat := Config.radix ^ (4 - i.val)

/-- The value of five base-85 digits, most significant first (R7, R30). -/
def digitsValue (d : Fin 5 → Nat) : Nat :=
  d 0 * weight 0 + d 1 * weight 1 + d 2 * weight 2 + d 3 * weight 3 + d 4 * weight 4

/-- The five bytes of a `DEC` operand, by position (R46). -/
def operandByte (c0 c1 c2 c3 c4 : Byte) (i : Fin 5) : Byte :=
  match i with
  | 0 => c0
  | 1 => c1
  | 2 => c2
  | 3 => c3
  | 4 => c4

/-- The `DEC` result lanes: `0x00 ++ w` (R47). -/
def packResult (w : Word32) : Lanes :=
  0x00#8 ++ w.extractLsb' 24 8 ++ w.extractLsb' 16 8 ++ w.extractLsb' 8 8 ++ w.extractLsb' 0 8

/-- A response as one word: `ovf * 2^41 + inv * 2^40 + dout` (R42). -/
def Response.word (r : Response) : RspWord := BitVec.ofBool r.ovf ++ BitVec.ofBool r.inv ++ r.dout

/-- The five lanes of a response's data, lane 0 first: the symbols of an `ENC` response in text order (R42, R45). -/
def Response.symbols (r : Response) : List Byte :=
  [lane r.dout 0, lane r.dout 1, lane r.dout 2, lane r.dout 3, lane r.dout 4]

/-- Lanes 1 to 4 of a response's data: the bytes of a `DEC` response in sequence order (R42, R47). -/
def Response.bytes (r : Response) : List Byte :=
  [lane r.dout 1, lane r.dout 2, lane r.dout 3, lane r.dout 4]

end Sys2Proof.Machine
end

