-- ==== Sys2Proof/Machine/Flags.lean ====
section
/-! DEFINITION. The two status outputs (R14, R15). They are computed for each response from its own request and never
stored, and they are independent of each other (R95). -/

namespace Sys2Proof.Machine

/-- `inv` of a `DEC` response (R14): some byte of the operand is not a symbol of the Alphabet. -/
def invFlag (c0 c1 c2 c3 c4 : Byte) : Bool := !(dval c0 && dval c1 && dval c2 && dval c3 && dval c4)

/-- `ovf` of a `DEC` response (R15): the decoded value needs more than 32 bits. -/
def ovfFlag (v : Nat) : Bool := decide (2 ^ 32 ≤ v)

end Sys2Proof.Machine
end

