-- ==== Sys2Proof/Machine/Ops.lean ====
section
/-! DEFINITION. The named operations on the state: taking the next request, delivering its response, idling, and the
two inputs of the host, a request and a reset.

TAKING AN EXCEPTION and returning from one: there is no such operation. R90: "The block raises no synchronous
exception"; R94: no interrupt; R96: "There is no trap entry: no state is saved, no mode changes, no mask changes, no
stack is used, control goes nowhere"; R97: no return. There is no writable memory and no register to read or write
(R10, R25, R28). -/

namespace Sys2Proof.Machine

/-- Takes the oldest unanswered request (R110): the word and the state with it accepted; none where no request is
pending. -/
def fetch (s : State) : Option (ReqWord × State) :=
  match s.pending with
  | [] => none
  | w :: rest => some (w, { s with pending := rest, answered := s.answered ++ [w] })

/-- Delivers the response of the accepted request (R43): it joins the responses, in order, and stands on the outputs.
Every operation of the block changes the state by this and by nothing else. -/
def deliver (r : Response) (s : State) : State :=
  { s with responses := s.responses ++ [r], onOutputs := some r }

/-- A step with no request pending: the block waits, and what the outputs show is nobody's response any more (R18, U14).
The free index advances. Log 2, log 3. -/
def idle (s : State) : State := { s with onOutputs := none, idleIndex := s.idleIndex + 1 }

/-- Host input: a request is presented. Any request may be presented at any time (R43). -/
def present (w : ReqWord) (s : State) : State := { s with pending := s.pending ++ [w] }

/-- Host input: the requests of a list are presented, in order. -/
def presentAll (ws : List ReqWord) (s : State) : State := { s with pending := s.pending ++ ws }

/-- Host input: a reset is applied (R105, R106). The unanswered requests get no response and nothing of them survives.
What was delivered before was delivered: the histories stay (log 8). -/
def applyReset (s : State) : State :=
  { s with pending := [], onOutputs := none, idleIndex := s.idleIndex + 1 }

/-- Host input to `step`: the word is placed so that the next step takes it (log 7). -/
def placeNext (w : ReqWord) (s : State) : State := { s with pending := w :: s.pending }

/-- What the 42 response outputs show: the response, while a request has asked for it, otherwise any value (R18, U14). -/
def outputs (s : State) : RspWord :=
  match s.onOutputs with
  | some r => r.word
  | none => Config.idleOutputs s.idleIndex

/-- The host reads response number `k`, counting from 0: it is there only if the host has a request for it (R18,
R110). -/
def readResponse (s : State) (k : Nat) : Option Response := s.responses[k]?

end Sys2Proof.Machine
end

