-- ==== Sys2Proof/Machine/Dec.lean ====
section
/-! DEFINITION. `DEC` (R60): 5 bytes to a 32-bit value and two flags. -/

namespace Sys2Proof.Machine

/-- Digit `i` of the operand, `x_i = DIDX[c_i]` (R46, R60); 0 for a byte that is no symbol (R61). -/
def decDigit (c0 c1 c2 c3 c4 : Byte) (i : Fin 5) : Nat := (didx (operandByte c0 c1 c2 c3 c4 i)).toNat

/-- `v = sum of x_i * 85^(4-i)`, an unbounded natural (R60, R62). -/
def decValue (c0 c1 c2 c3 c4 : Byte) : Nat := digitsValue (decDigit c0 c1 c2 c3 c4)

/-- `w` (R60): `v` where it fits 32 bits, else what the given function makes of it (R63). -/
def decData (decOvf : Nat → Word32) (v : Nat) : Word32 := if v < 2 ^ 32 then BitVec.ofNat 32 v else decOvf v

/-- The response to a `DEC` request, for any choice of the parameter `DEC_OVF` (R5, R60). -/
def decResponseWith (decOvf : Nat → Word32) (c0 c1 c2 c3 c4 : Byte) : Response :=
  let v := decValue c0 c1 c2 c3 c4
  { dout := packResult (decData decOvf v)
    inv := invFlag c0 c1 c2 c3 c4
    ovf := ovfFlag v }

/-- The response to a `DEC` request (R60), with `DEC_OVF` left uninterpreted (R63, U3): log 4. -/
def decResponse (c0 c1 c2 c3 c4 : Byte) : Response := decResponseWith Config.decOvf c0 c1 c2 c3 c4

/-- `DEC` (R60): the response is delivered; nothing else changes and no operand is refused ("No error condition is
raised for symbols outside the Alphabet"). -/
def execDec (c0 c1 c2 c3 c4 : Byte) (s : State) : Host.Outcome State Fault Refusal :=
  .next (deliver (decResponse c0 c1 c2 c3 c4) s)

end Sys2Proof.Machine
end

