-- ==== Sys2Proof/Machine/Enc.lean ====
section
/-! DEFINITION. `ENC` (R55): 4 bytes to 5 symbols. -/

namespace Sys2Proof.Machine

/-- Digit `i` of `v`, `(v div 85^(4-i)) mod 85` (R36, R55). -/
def encDigit (v : Nat) (i : Fin 5) : Fin 85 := Fin.ofNat 85 (v / weight i)

/-- Symbol `i` of the result, `ALPHA[d_i]` (R36, R45). -/
def encSymbol (v : Nat) (i : Fin 5) : Byte := alpha (encDigit v i)

/-- The response to an `ENC` request (R55). `pad` is ignored (R50); both flags are 0 (R14, R15). -/
def encResponse (_pad b0 b1 b2 b3 : Byte) : Response :=
  let v := rawValue b0 b1 b2 b3
  { dout := packLanes (encSymbol v 0) (encSymbol v 1) (encSymbol v 2) (encSymbol v 3) (encSymbol v 4)
    inv := false
    ovf := false }

/-- `ENC` (R55): the response is delivered; nothing else changes and nothing can go wrong ("Deterministic, no error
conditions, no side effects"). -/
def execEnc (pad b0 b1 b2 b3 : Byte) (s : State) : Host.Outcome State Fault Refusal :=
  .next (deliver (encResponse pad b0 b1 b2 b3) s)

end Sys2Proof.Machine
end

