-- ==== Sys2Proof/Machine/Dispatch.lean ====
section
/-! DEFINITION. The meaning of every operation: one arm per constructor. -/

namespace Sys2Proof.Machine

def exec (i : Instr) (s : State) : Host.Outcome State Fault Refusal :=
  match i with
  | .enc pad b0 b1 b2 b3 => Sys2Proof.Machine.execEnc pad b0 b1 b2 b3 s
  | .dec c0 c1 c2 c3 c4 => Sys2Proof.Machine.execDec c0 c1 c2 c3 c4 s

end Sys2Proof.Machine
end

