-- ==== Sys2Proof/Machine/Step.lean ====
section
/-! DEFINITION. One step: one transaction (R43), the oldest unanswered request answered by the operation it selects;
with no request pending the block idles (log 2). -/

namespace Sys2Proof.Machine

def step (s : State) : Host.Outcome State Fault Refusal :=
  match fetch s with
  | none => .next (idle s)
  | some (w, s') => exec (decode w) s'

/-- The state whose very next step runs the instruction whose bits are `w`, of which `nbits` are given: the request
word stands first among the requests presented (log 7, log 16). -/
def State.withFetchWord (s : State) (nbits w : Nat) : State := placeNext (BitVec.ofNat 41 (w % 2 ^ nbits)) s

end Sys2Proof.Machine
end

