-- ==== Sys2Proof/Machine/Forms.lean ====
section
/-! DEFINITION. The two procedures the spec gives beside the closed forms and calls equal to them as functions: the
digit loop of `ENC` (R56) and Horner's form of `DEC` (R65), the latter also in 32-bit wrapping arithmetic (R63). The
meanings use the closed forms; these are here to be compared with them. -/

namespace Sys2Proof.Machine

/-- The loop of R56 on the value `t`, `k` rounds: each round stores `t mod 85` in front of the digits stored before,
from the last position to the first, and goes on with `t div 85`. Answers the digits and the final `t`. -/
def encLoop (k t : Nat) (stored : List Nat) : List Nat × Nat :=
  match k with
  | 0 => (stored, t)
  | k + 1 => encLoop k (t / Config.radix) (t % Config.radix :: stored)

/-- Horner's form (R65) from the accumulator `t`. -/
def hornerFrom (t : Nat) (xs : List Nat) : Nat := xs.foldl (fun t x => t * Config.radix + x) t

/-- Horner's form with every step reduced modulo 2^32, as a 32-bit accumulator that wraps (R63). -/
def hornerWrapFrom (t : Nat) (xs : List Nat) : Nat := xs.foldl (fun t x => (t * Config.radix + x) % 2 ^ 32) t

/-- The five digits of a `DEC` operand, most significant first. -/
def decDigits (c0 c1 c2 c3 c4 : Byte) : List Nat :=
  [decDigit c0 c1 c2 c3 c4 0, decDigit c0 c1 c2 c3 c4 1, decDigit c0 c1 c2 c3 c4 2, decDigit c0 c1 c2 c3 c4 3,
    decDigit c0 c1 c2 c3 c4 4]

end Sys2Proof.Machine
end

