-- ==== Sys2Proof/Machine/Block.lean ====
section
/-! DEFINITION. The block as a function: `Z85CT : REQ -> RSP`, total on all 2^41 request words (R43). It reads no state,
so it says what a host gets for a request, whatever came before (R13). -/

namespace Sys2Proof.Machine

/-- The response to an operation. -/
def respond (i : Instr) : Response :=
  match i with
  | .enc pad b0 b1 b2 b3 => encResponse pad b0 b1 b2 b3
  | .dec c0 c1 c2 c3 c4 => decResponse c0 c1 c2 c3 c4

/-- `Z85CT` of R43. -/
def z85ct (w : ReqWord) : Response := respond (decode w)

end Sys2Proof.Machine
end

