-- ==== Sys2Proof/Machine/Bulk.lean ====
section
/-! DEFINITION. HOST SOFTWARE, not the block (R3, R70; log 9): the bulk codec, `encode(bytes)` and `decode(text)`
(R71 to R76, R89), as the transactions it makes and the padding and truncation it does around them. -/

namespace Sys2Proof.Machine

/-- What a host procedure can report (R77, R82, R89). -/
inductive HostError where
  /-- The error value a failing `put` answered (R77, R91). -/
  | sink (e : Nat)
  /-- `ErrClosed` (R82): a `write` on a closed instance; distinct from every sink error. -/
  | closed
  /-- "invalid symbol" (R89): a strict host met `inv = 1` or `ovf = 1`. -/
  | invalidSymbol
  deriving DecidableEq, Repr

/-- The request word `ENC(q)` presents for a 4-byte sequence, `0 ++ 0x00 ++ q[0] ++ q[1] ++ q[2] ++ q[3]`. Only groups
of 4 bytes are ever passed (log 20). -/
def encRequest (q : List Byte) : ReqWord :=
  encode (.enc 0x00#8 (q.getD 0 0#8) (q.getD 1 0#8) (q.getD 2 0#8) (q.getD 3 0#8))

/-- The request word `DEC(t)` presents for a 5-symbol sequence, `1 ++ t[0] ++ ... ++ t[4]`. Only groups of 5 are ever
passed (log 20). -/
def decRequest (t : List Byte) : ReqWord :=
  encode (.dec (t.getD 0 0#8) (t.getD 1 0#8) (t.getD 2 0#8) (t.getD 3 0#8) (t.getD 4 0#8))

/-- `ENC(q)`: the five lanes of the response as a 5-symbol sequence. -/
def hostEnc (q : List Byte) : List Byte := (z85ct (encRequest q)).symbols

/-- `DEC(t)`: lanes 1 to 4 of the response as a 4-byte sequence; the flags are not looked at. -/
def hostDec (t : List Byte) : List Byte := (z85ct (decRequest t)).bytes

/-- The pad value of the encoding side, a zero byte (R73). -/
def zeroPad : Byte := 0x00#8

/-- The pad value of the decoding side, the Padding Symbol `ALPHA[84]` (R73). -/
def padSymbol : Byte := alpha 84

/-- `s[i..j)` (R7). -/
def slice (s : List Byte) (i j : Nat) : List Byte := (s.drop i).take (j - i)

/-- `encode(bytes) -> text` (R71). -/
def encodeBytes (b : List Byte) : List Byte :=
  let n := b.length
  let full := n / 4
  let r := n % 4
  let out := (List.range full).flatMap (fun g => hostEnc (slice b (4 * g) (4 * g + 4)))
  if r > 0 then
    let q := slice b (4 * full) n ++ List.replicate (4 - r) zeroPad
    out ++ (hostEnc q).take (5 - (4 - r))
  else out

/-- `decode(text) -> bytes` (R74), permissive: the flags are ignored (R89, `STRICT = false`). -/
def decodeText (t : List Byte) : List Byte :=
  let m := t.length
  let full := m / 5
  let r := m % 5
  let out := (List.range full).flatMap (fun g => hostDec (slice t (5 * g) (5 * g + 5)))
  if r > 0 then
    let q := slice t (5 * full) m ++ List.replicate (5 - r) padSymbol
    out ++ (hostDec q).take (4 - (5 - r))
  else out

/-- The groups of `size` elements that a sequence is cut into, in order, the last one padded on the right where it is
short (R71, R74). -/
def groups (size : Nat) (pad : Byte) (s : List Byte) : List (List Byte) :=
  let n := s.length
  let full := n / size
  let r := n % size
  let out := (List.range full).map (fun g => slice s (size * g) (size * g + size))
  if r > 0 then out ++ [slice s (size * full) n ++ List.replicate (size - r) pad] else out

/-- The requests `encode(bytes)` presents, `ceil(n/4)` of them (R71). -/
def encodeRequests (b : List Byte) : List ReqWord := (groups 4 zeroPad b).map encRequest

/-- The requests `decode(text)` presents: `ceil(m/5)`, or one fewer where the transaction of a trailing group of one
symbol is skipped (R74, R76; log 13). -/
def decodeRequests (t : List Byte) : List ReqWord :=
  let all := (groups 5 padSymbol t).map decRequest
  if t.length % 5 = 1 ∧ Config.skipsOneSymbolGroup then all.dropLast else all

/-- `len(encode(b))` for `len(b) = n` (R72). -/
def encodedLength (n : Nat) : Nat := 5 * (n / 4) + (if n % 4 = 0 then 0 else n % 4 + 1)

/-- `len(decode(t))` for `len(t) = m` (R74). -/
def decodedLength (m : Nat) : Nat := 4 * (m / 5) + (if m % 5 = 0 then 0 else m % 5 - 1)

/-- What the host makes of the responses to `encodeRequests`: their symbols in order, cut to the length of R72. -/
def assembleEncoded (n : Nat) (rs : List Response) : List Byte :=
  (rs.flatMap Response.symbols).take (encodedLength n)

/-- What the host makes of the responses to `decodeRequests`: their bytes in order, cut to the length of R74. -/
def assembleDecoded (m : Nat) (rs : List Response) : List Byte :=
  (rs.flatMap Response.bytes).take (decodedLength m)

/-- The condition a strict host rejects (R89). -/
def flagged (r : Response) : Bool := r.inv || r.ovf

/-- `decode(text)` with the parameter `STRICT` (R5, R89): a strict host fails with "invalid symbol" when a response of a
transaction it makes is flagged, a permissive host never fails (log 14). -/
def decodeTextWith (strict : Bool) (t : List Byte) : Except HostError (List Byte) :=
  if strict && (decodeRequests t).any (fun w => flagged (z85ct w)) then .error .invalidSymbol
  else .ok (decodeText t)

end Sys2Proof.Machine
end

