-- ==== Sys2Proof/Machine/Stream.lean ====
section
/-! DEFINITION. HOST SOFTWARE, not the block (R3, R70; log 9): one streaming encoder or decoder instance and its output
sink (R77 to R89). R85: the decoder is the encoder "with group size 5 for 4, `DEC` for `ENC`, and a put of 4 bytes per
full group", so both are one text over a direction. -/

namespace Sys2Proof.Machine

/-- What a sink answers to a `put` (R77). -/
inductive SinkAnswer where
  /-- The group is appended to the sink's content. -/
  | ok
  /-- The error value `e`; of the group at most the first `kept` elements, and never all of it, are appended (U8). -/
  | fail (e : Nat) (kept : Nat)
  deriving DecidableEq, Repr

/-- An output sink (R77): what it has received, one entry per `put`, and the answers it will give, in order; it goes on
answering `ok` after the last. The answers are an input from outside: log 10. -/
structure Sink where
  received : List (List Byte)
  answers : List SinkAnswer
  deriving DecidableEq, Repr

/-- The sink's content (R77). -/
def Sink.content (k : Sink) : List Byte := k.received.flatten

/-- `sink.put(s)` (R77): the sink after it, and the error where it failed. -/
def Sink.put (k : Sink) (s : List Byte) : Sink × Option HostError :=
  match k.answers with
  | [] => ({ k with received := k.received ++ [s] }, none)
  | .ok :: rest => ({ received := k.received ++ [s], answers := rest }, none)
  | .fail e kept :: rest =>
    ({ received := k.received ++ [s.take (min kept (s.length - 1))], answers := rest }, some (.sink e))

/-- Which of the two streaming components an instance is (R70). -/
inductive Direction where
  | encoder
  | decoder
  deriving DecidableEq, Repr

/-- The group size: 4 bytes or 5 symbols (R78, R84, R85). -/
def Direction.size (d : Direction) : Nat :=
  match d with
  | .encoder => 4
  | .decoder => 5

/-- The pad value for a short last group (R73, R81, R86). -/
def Direction.pad (d : Direction) : Byte :=
  match d with
  | .encoder => zeroPad
  | .decoder => padSymbol

/-- The request word for a whole group. -/
def Direction.request (d : Direction) (g : List Byte) : ReqWord :=
  match d with
  | .encoder => encRequest g
  | .decoder => decRequest g

/-- What is taken from the response to a whole group: 5 symbols or 4 bytes. -/
def Direction.output (d : Direction) (r : Response) : List Byte :=
  match d with
  | .encoder => r.symbols
  | .decoder => r.bytes

/-- How many elements of the output a last group of `k` elements keeps: `5 - (4 - k)` symbols (R81), `4 - (5 - k)` bytes
(R86). -/
def Direction.keep (d : Direction) (k : Nat) : Nat :=
  match d with
  | .encoder => 5 - (4 - k)
  | .decoder => 4 - (5 - k)

/-- The condition a strict decoder rejects (R89). An encoder has none: its flags are always 0 (R14, R15). -/
def Direction.rejects (d : Direction) (strict : Bool) (r : Response) : Bool :=
  match d with
  | .encoder => false
  | .decoder => strict && flagged r

/-- `status` (R78): `Open`, or `Error(e)`, which is never left (R80, R97). -/
inductive Status where
  | opened
  | error (e : HostError)
  deriving DecidableEq, Repr

/-- One streaming instance (R78, R84): its direction and `STRICT` option, the Carry Buffer, the status, whether it was
closed, the sink it is bound to. `presented` is the model's own record of the request words it has presented (log 19). -/
structure Stream where
  direction : Direction
  strict : Bool
  carry : List Byte
  status : Status
  closed : Bool
  sink : Sink
  presented : List ReqWord
  deriving DecidableEq, Repr

/-- Creation, bound to a sink (R77, R78, R84): `carry = []`, `status = Open`, `closed = false`. -/
def Stream.create (d : Direction) (strict : Bool) (k : Sink) : Stream :=
  { direction := d, strict := strict, carry := [], status := .opened, closed := false, sink := k, presented := [] }

/-- The Carry Buffer after a failure: any value of a length the buffer can have (R80, U9). Log 12. -/
def Stream.freeCarry (s : Stream) : List Byte :=
  (Config.carryAfterFailure s.presented.length).take (s.direction.size - 1)

/-- The instance after its sink failed with `e` (R79, R80): the error is remembered. -/
def Stream.sinkFailed (s : Stream) (e : HostError) : Stream := { s with status := .error e, carry := s.freeCarry }

/-- The instance after a strict rejection (R89): whether the error is remembered is open (log 14). -/
def Stream.strictFailed (s : Stream) : Stream :=
  { s with status := if Config.strictFailureSticks then .error .invalidSymbol else .opened, carry := s.freeCarry }

/-- One group `g`: one transaction, then one `put` of the first `keep` elements of its output, no `put` where that is
none (R77, R86, D19). A strict decoder rejects a flagged response and puts nothing of it (R89). -/
def Stream.emit (s : Stream) (g : List Byte) (keep : Nat) : Stream × Option HostError :=
  let w := s.direction.request g
  let r := z85ct w
  let s1 := { s with presented := s.presented ++ [w] }
  if s.direction.rejects s.strict r then (s1.strictFailed, some .invalidSymbol)
  else if keep = 0 then (s1, none)
  else
    match s1.sink.put ((s.direction.output r).take keep) with
    | (k, none) => ({ s1 with sink := k }, none)
    | (k, some e) => ({ s1 with sink := k }.sinkFailed e, some e)

/-- The loop of R79 and R85 over `k` full groups of `p`, then the trailing elements into the Carry Buffer. -/
def Stream.emitGroups (s : Stream) (k : Nat) (p : List Byte) : Stream × Option HostError :=
  match k with
  | 0 => ({ s with carry := p }, none)
  | k + 1 =>
    match s.emit (p.take s.direction.size) (s.direction.keep s.direction.size) with
    | (s', none) => s'.emitGroups k (p.drop s.direction.size)
    | (s', some e) => (s', some e)

/-- The work of a `write` (R79, R85): complete the pending group and emit it, emit the full groups of the rest, store
the trailing elements. A write too short to complete the pending group only appends to it. -/
def Stream.absorb (s : Stream) (p : List Byte) : Stream × Option HostError :=
  let size := s.direction.size
  if s.carry = [] then s.emitGroups (p.length / size) p
  else
    let taken := min (size - s.carry.length) p.length
    let pending := s.carry ++ p.take taken
    let rest := p.drop taken
    if pending.length = size then
      match { s with carry := [] }.emit pending (s.direction.keep size) with
      | (s', none) => s'.emitGroups (rest.length / size) rest
      | (s', some e) => (s', some e)
    else ({ s with carry := pending }, none)

/-- `REJECTED_WRITE_COUNT` for a write of `n` elements (R5, D18): 0 or `n`. Log 11. -/
def rejectedWriteCount (n : Nat) : Nat := if Config.rejectedCountIsLength then n else 0

/-- What a `write` returns: the count and the error, `nil` being none (R79). -/
structure WriteResult where
  count : Nat
  error : Option HostError
  deriving DecidableEq, Repr

/-- `write(p)` (R79, R80, R82, R85). The checks stand in the order of R95: closed, then the sticky error, then the
work. -/
def Stream.write (s : Stream) (p : List Byte) : Stream × WriteResult :=
  match s.closed, s.status with
  | true, .opened => (s, { count := rejectedWriteCount p.length, error := some .closed })
  | true, .error e => (s, { count := rejectedWriteCount p.length, error := some e })
  | false, .error e => (s, { count := rejectedWriteCount p.length, error := some e })
  | false, .opened =>
    match s.absorb p with
    | (s', none) => (s', { count := p.length, error := none })
    | (s', some e) => (s', { count := rejectedWriteCount p.length, error := some e })

/-- The final group of a `close` (R81, R86): padded to a whole group, transformed, cut, the Carry Buffer emptied. For a
decoder's single leftover symbol nothing is put, and the transaction is made or skipped (R86; log 13). -/
def Stream.flush (s : Stream) : Stream × Option HostError :=
  let k := s.carry.length
  let keep := s.direction.keep k
  let g := s.carry ++ List.replicate (s.direction.size - k) s.direction.pad
  let s1 := { s with carry := [] }
  if keep = 0 ∧ Config.skipsOneSymbolGroup then (s1, none) else s1.emit g keep

/-- `close()` (R81, R86): the error, `nil` being none. A second close emits nothing (C4). -/
def Stream.close (s : Stream) : Stream × Option HostError :=
  match s.status with
  | .error e => ({ s with closed := true }, some e)
  | .opened =>
    if s.closed then (s, none)
    else if s.carry = [] then ({ s with closed := true }, none)
    else { s with closed := true }.flush

/-- A call on an instance (R88: every call is synchronous, one caller, in order). -/
inductive Call where
  | write (p : List Byte)
  | close
  deriving DecidableEq, Repr

/-- The instance after a call. -/
def Stream.call (s : Stream) (c : Call) : Stream :=
  match c with
  | .write p => (s.write p).1
  | .close => s.close.1

/-- The error a call returns, `nil` being none. -/
def Stream.callError (s : Stream) (c : Call) : Option HostError :=
  match c with
  | .write p => (s.write p).2.error
  | .close => s.close.2

/-- The instance after a sequential history of calls (R88; overlapping calls have no meaning: log 15). -/
def Stream.calls (s : Stream) (cs : List Call) : Stream := cs.foldl Stream.call s

/-- The instance after the pieces have been written one after another. -/
def Stream.writes (s : Stream) (ps : List (List Byte)) : Stream := s.calls (ps.map Call.write)

/-- The instance after the pieces have been written one after another and it has been closed. -/
def Stream.run (s : Stream) (ps : List (List Byte)) : Stream := (s.writes ps).close.1

/-- Several instances (R88, R100): a call goes to one of them, by its place in the list. -/
def callAt (instances : List Stream) (i : Nat) (c : Call) : List Stream := instances.modify i (fun s => s.call c)

/-- The instances after an interleaved history of calls. -/
def callsAt (instances : List Stream) (history : List (Nat × Call)) : List Stream :=
  history.foldl (fun ss h => callAt ss h.1 h.2) instances

end Sys2Proof.Machine
end

