-- ==== Sys2Proof/Safety.lean ====
section
/-! DEFINITION. What counts as a good state and a safe run, in the terms the statements use. -/

namespace Sys2Proof

/-- R110 and R13 as a property of a state: the k-th response delivered is what the function `Z85CT` of R43 makes of the
k-th request answered, no more and no fewer, and a response that stands on the outputs is the last one delivered. -/
def Paired (s : Machine.State) : Prop :=
  s.responses = s.answered.map Machine.z85ct ∧
    ∀ r, s.onOutputs = some r → s.responses.getLast? = some r

/-- What the host can do to the machine between two steps (R43, R105): present a request, or apply a reset. -/
inductive HostInput where
  | present (w : ReqWord)
  | reset
  deriving DecidableEq, Repr

/-- The state after a host input. -/
def HostInput.apply (e : HostInput) (s : Machine.State) : Machine.State :=
  match e with
  | .present w => Machine.present w s
  | .reset => Machine.applyReset s

/-- A streaming instance holds what R78 and R84 allow: fewer carried elements than a group has. -/
def CarryFits (s : Machine.Stream) : Prop := s.carry.length < s.direction.size

/-- A sink that never fails (R83, R87 "if no `put` fails"). -/
def NeverFails (k : Machine.Sink) : Prop := ∀ a ∈ k.answers, a = .ok

end Sys2Proof
end

