-- ==== Sys2Proof/Certificates/Slice0/Obligations.lean ====
section
/-! DEFINITION. The statements for the provers, in the order of the rules of spec/: encoding, tables, `ENC`, `DEC`,
the machine, the host procedures. -/

open Sys2Proof Sys2Proof.Machine

/-! ## Encoding (30_encoding.md) -/

/-- R40. A request word is `op * 2^40 + din`, `din` is five 8-bit lanes with lane 0 the most significant, and bit 40 alone
selects the operation: 0 is `ENC`, 1 is `DEC`. -/
def Obligations.RequestWordIsOpAndFiveLanes : Prop :=
  ∀ w : ReqWord,
    w.toNat = (reqOp w).toNat * 2 ^ 40 + (reqDin w).toNat ∧
    (reqDin w).toNat =
      (lane (reqDin w) 0).toNat * 2 ^ 32 + (lane (reqDin w) 1).toNat * 2 ^ 24 + (lane (reqDin w) 2).toNat * 2 ^ 16 +
        (lane (reqDin w) 3).toNat * 2 ^ 8 + (lane (reqDin w) 4).toNat ∧
    (w.getLsbD 40 = false ↔ ∃ pad b0 b1 b2 b3, decode w = .enc pad b0 b1 b2 b3) ∧
    (w.getLsbD 40 = true ↔ ∃ c0 c1 c2 c3 c4, decode w = .dec c0 c1 c2 c3 c4)

/-- R41. The operands stand in the lanes in order: lane `i` is bits `39-8i` to `32-8i`, that is the number
`w div 2^(32-8i) mod 256`; for `ENC` they are `pad, b0, b1, b2, b3`, for `DEC` `c0` to `c4`. -/
def Obligations.OperandsStandInTheLanes : Prop :=
  ∀ w : ReqWord,
    let l : Nat → Byte := fun i => BitVec.ofNat 8 (w.toNat / 2 ^ (32 - 8 * i) % 256)
    (w.getLsbD 40 = false → decode w = .enc (l 0) (l 1) (l 2) (l 3) (l 4)) ∧
    (w.getLsbD 40 = true → decode w = .dec (l 0) (l 1) (l 2) (l 3) (l 4))

/-- A response word is `ovf * 2^41 + inv * 2^40 + dout`, `dout` is five 8-bit lanes; the flags of an `ENC` response
are 0, and lane 0 of a `DEC` response is 0x00. -/
def Obligations.ResponseWordIsFlagsAndFiveLanes : Prop :=
  (∀ r : Response,
    r.word.toNat = r.ovf.toNat * 2 ^ 41 + r.inv.toNat * 2 ^ 40 + r.dout.toNat ∧
    r.dout.toNat =
      (lane r.dout 0).toNat * 2 ^ 32 + (lane r.dout 1).toNat * 2 ^ 24 + (lane r.dout 2).toNat * 2 ^ 16 +
        (lane r.dout 3).toNat * 2 ^ 8 + (lane r.dout 4).toNat) ∧
  ∀ w : ReqWord,
    (w.getLsbD 40 = false → (z85ct w).inv = false ∧ (z85ct w).ovf = false) ∧
    (w.getLsbD 40 = true → lane (z85ct w).dout 0 = 0x00#8)

/-- Decoding an encoded operation gives it back, every operand at every value, on words, on numbers and on the opcode
table's numbering. (Every operation is well formed: R49.) -/
def Obligations.DecodeOfEncodeIsTheOperation : Prop :=
  ∀ i : Instr, i.wellFormed = true ∧ decode (encode i) = i ∧ decodeRequest (encode i).toNat = .ok i ∧
    decodeTableWord 41 (encode i).toNat = some i ∧ decodeTableWord 48 (encode i).toNat = some i

/-- No request word is illegal and none has two meanings: encoding what a word decodes to gives the word back. What the
decoder does with a number of more than 41 bits, which is no request word, is the model's choice (log 16): it refuses
exactly those by name, and so a number decodes to an operation only where it is that operation's word. -/
def Obligations.EveryRequestWordIsOneOperation : Prop :=
  (∀ w : ReqWord, encode (decode w) = w) ∧
  (∀ n i, decodeRequest n = .ok i ↔ n = (encode i).toNat) ∧
  ∀ n, decodeRequest n = .error .notARequestWord ↔ 2 ^ 41 ≤ n

/-- R48. The opcode map: a request selects the row whose `match` it equals under the mask; the rows are `ENC` and `DEC`,
and every request selects exactly one of them. -/
def Obligations.OpcodeMapHasTwoRowsAndNoHoles : Prop :=
  ∀ w : ReqWord,
    (w &&& 0x10000000000#41 = 0x00000000000#41 ↔ ∃ pad b0 b1 b2 b3, decode w = .enc pad b0 b1 b2 b3) ∧
    (w &&& 0x10000000000#41 = 0x10000000000#41 ↔ ∃ c0 c1 c2 c3 c4, decode w = .dec c0 c1 c2 c3 c4) ∧
    (w &&& 0x10000000000#41 = 0x00000000000#41 ∨ w &&& 0x10000000000#41 = 0x10000000000#41)

/-- Request words written out in the spec decode to the operations they stand for (R52, 95_test_vectors.md sections 2, 3
and P6). The last clause, a number with a bit above bit 40, is no request word of the spec: that it is refused is the
model's choice (log 16). -/
def Obligations.WrittenOutWordsDecode : Prop :=
  decode 0x000864FD26F#41 = .enc 0x00#8 0x86#8 0x4F#8 0xD2#8 0x6F#8 ∧
  decode 0x0A5FFFFFFFF#41 = .enc 0xA5#8 0xFF#8 0xFF#8 0xFF#8 0xFF#8 ∧
  decode 0x148656C6C6F#41 = .dec 0x48#8 0x65#8 0x6C#8 0x6C#8 0x6F#8 ∧
  decode 0x16C69232323#41 = .dec 0x6C#8 0x69#8 0x23#8 0x23#8 0x23#8 ∧
  decodeTableWord 41 0x12020202031 = some (.dec 0x20#8 0x20#8 0x20#8 0x20#8 0x31#8) ∧
  decodeTableWord 48 0x20000000000 = none

/-! ## The tables (10_state.md, 20_memory.md) -/

/-- R26. The Alphabet: its 85 codes are those of the document's string in order (the two braces stand as codes 0x7B and
0x7D), no code occurs twice, every code is in 0x21..0x7D, and the first three ranges have their closed forms. -/
def Obligations.AlphabetIsTheDocumentsString : Prop :=
  (List.finRange 85).map alpha =
    ("0123456789abcdefghijklmnopqrstuvwxyzABCDEFGHIJKLMNOPQRSTUVWXYZ.-:+=^!/*?&<>()[]".toList.map
      (fun c => BitVec.ofNat 8 c.toNat)) ++ [0x7B#8, 0x7D#8] ++
      ("@%$#".toList.map (fun c => BitVec.ofNat 8 c.toNat)) ∧
  (∀ i j, alpha i = alpha j → i = j) ∧
  (∀ i, 0x21 ≤ (alpha i).toNat ∧ (alpha i).toNat ≤ 0x7D) ∧
  ∀ i : Fin 85,
    (i.val ≤ 9 → (alpha i).toNat = 0x30 + i.val) ∧
    (10 ≤ i.val → i.val ≤ 35 → (alpha i).toNat = 0x61 + (i.val - 10)) ∧
    (36 ≤ i.val → i.val ≤ 61 → (alpha i).toNat = 0x41 + (i.val - 36))

/-- R27. The Decode Table is the inverse of the Alphabet completed with zero: 85 entries are numbers, 171 are dots. -/
def Obligations.DecodeTableInvertsTheAlphabet : Prop :=
  (∀ i : Fin 85, (didx (alpha i)).toNat = i.val ∧ dval (alpha i) = true) ∧
  (∀ b : Byte, (∀ i, alpha i ≠ b) → didx b = 0#7 ∧ dval b = false) ∧
  ((List.range 256).filter (fun n => dval (BitVec.ofNat 8 n))).length = 85 ∧
  ((List.range 256).filter (fun n => !dval (BitVec.ofNat 8 n))).length = 171

/-- R107. Building the table from the Alphabet, every entry zero first and then `DIDX[ALPHA[i]] := i`,
`DVAL[ALPHA[i]] := 1` for every `i`, gives the Decode Table, entry by entry, in whatever order the indices are taken. -/
def Obligations.DecodeTableIsBuiltFromTheAlphabet : Prop :=
  ∀ order : List (Fin 85), order.Perm (List.finRange 85) →
    (buildDtab order).length = 256 ∧ ∀ b : Byte, (buildDtab order)[b.toNat]? = some (dtab b)

/-- The whole address map: `ALPHA` has the indices 0..84 and `DTAB` 0..255 and nothing else, a `DTAB` entry is
`DVAL ++ DIDX`, and its index field is a digit. -/
def Obligations.AddressMapIsTheTwoTables : Prop :=
  (∀ a, (memRead .alpha a).isSome = true ↔ a < 85) ∧
  (∀ a, (memRead .dtab a).isSome = true ↔ a < 256) ∧
  (∀ i : Fin 85, memRead .alpha i.val = some (alpha i)) ∧
  ∀ b : Byte, memRead .dtab b.toNat = some (BitVec.ofBool (dval b) ++ didx b) ∧ (didx b).toNat < 85

/-! ## ENC (40_encode_chunk.md) -/

/-- R44. The operand of `ENC` is bits 31..0 of the request, the big-endian value of the four bytes. -/
def Obligations.EncOperandIsTheLow32Bits : Prop :=
  ∀ (w : ReqWord) (pad b0 b1 b2 b3 : Byte), decode w = .enc pad b0 b1 b2 b3 →
    rawValue b0 b1 b2 b3 = w.toNat % 2 ^ 32 ∧
    rawValue b0 b1 b2 b3 = b0.toNat * 2 ^ 24 + b1.toNat * 2 ^ 16 + b2.toNat * 2 ^ 8 + b3.toNat

/-- R55. `ENC` completes on every operand in every state. With `v` the big-endian value of the four bytes it delivers the
five symbols `ALPHA[d0]` to `ALPHA[d4]`, where `d_i = (v div 85^(4-i)) mod 85`, the only five digits of which `v` is the
value; both flags are 0 and nothing else changes. The corner cases and the worked example: 0 gives "00000", 2^32 - 1 gives "%nSc0",
the first symbol is never `$` or `#`, `86 4F D2 6F` gives "Hello". -/
def Obligations.EncDeliversTheFiveSymbols : Prop :=
  (∀ (pad b0 b1 b2 b3 : Byte) (s : State), ∃ d0 d1 d2 d3 d4 : Fin 85, ∃ r : Response,
    let v := b0.toNat * 2 ^ 24 + b1.toNat * 2 ^ 16 + b2.toNat * 2 ^ 8 + b3.toNat
    d0.val = v / 52200625 % 85 ∧ d1.val = v / 614125 % 85 ∧ d2.val = v / 7225 % 85 ∧ d3.val = v / 85 % 85 ∧
    d4.val = v % 85 ∧
    v = d0.val * 52200625 + d1.val * 614125 + d2.val * 7225 + d3.val * 85 + d4.val ∧
    (∀ e0 e1 e2 e3 e4 : Fin 85,
      v = e0.val * 52200625 + e1.val * 614125 + e2.val * 7225 + e3.val * 85 + e4.val →
        e0 = d0 ∧ e1 = d1 ∧ e2 = d2 ∧ e3 = d3 ∧ e4 = d4) ∧
    r.dout = alpha d0 ++ alpha d1 ++ alpha d2 ++ alpha d3 ++ alpha d4 ∧
    r.inv = false ∧ r.ovf = false ∧
    lane r.dout 0 ≠ 0x24#8 ∧ lane r.dout 0 ≠ 0x23#8 ∧
    exec (.enc pad b0 b1 b2 b3) s =
      .next { s with responses := s.responses ++ [r], onOutputs := some r }) ∧
  (z85ct (encode (.enc 0x00#8 0x00#8 0x00#8 0x00#8 0x00#8))).dout = 0x3030303030#40 ∧
  (z85ct (encode (.enc 0x00#8 0xFF#8 0xFF#8 0xFF#8 0xFF#8))).dout = 0x256E536330#40 ∧
  (z85ct 0x000864FD26F#41).dout = 0x48656C6C6F#40

/-- The document's loop, remainder and division with the digits stored from the last position to the first, computes the
closed form, and ends with 0. -/
def Obligations.EncLoopComputesTheClosedForm : Prop :=
  ∀ v : Nat, v < 2 ^ 32 →
    encLoop 5 v [] = ([(encDigit v 0).val, (encDigit v 1).val, (encDigit v 2).val, (encDigit v 3).val,
      (encDigit v 4).val], 0)

/-- The ranges: the first digit is at most 82 and the outer `mod` changes nothing for it; where it is 82 the other four
digits have a value of at most 14516045. -/
def Obligations.EncDigitRanges : Prop :=
  ∀ v : Nat, v ≤ 4294967295 →
    (encDigit v 0).val ≤ 82 ∧ v / 85 ^ 4 % 85 = v / 85 ^ 4 ∧ (encDigit v 0).val = v / 85 ^ 4 ∧
    ((encDigit v 0).val = 82 →
      (encDigit v 1).val * 614125 + (encDigit v 2).val * 7225 + (encDigit v 3).val * 85 + (encDigit v 4).val ≤
        14516045)

/-- `ENC` is order-preserving: a smaller operand has a lexicographically smaller digit sequence. -/
def Obligations.EncPreservesOrder : Prop :=
  ∀ v v' : Nat, v < v' → v' < 2 ^ 32 →
    ∃ k : Fin 5, (∀ i, i < k → encDigit v i = encDigit v' i) ∧ encDigit v k < encDigit v' k

/-- `ENC` is injective, and its image is the set of the strings over the Alphabet whose base-85 value is below 2^32. -/
def Obligations.EncIsInjectiveWithImageBelow2Pow32 : Prop :=
  (∀ b0 b1 b2 b3 b0' b1' b2' b3' pad pad' : Byte,
    (z85ct (encode (.enc pad b0 b1 b2 b3))).dout = (z85ct (encode (.enc pad' b0' b1' b2' b3'))).dout →
      b0 = b0' ∧ b1 = b1' ∧ b2 = b2' ∧ b3 = b3') ∧
  ∀ c0 c1 c2 c3 c4 : Byte,
    (∃ b0 b1 b2 b3, (z85ct (encode (.enc 0x00#8 b0 b1 b2 b3))).symbols = [c0, c1, c2, c3, c4]) ↔
      (∃ d0 d1 d2 d3 d4 : Fin 85,
        [c0, c1, c2, c3, c4] = [alpha d0, alpha d1, alpha d2, alpha d3, alpha d4] ∧
        d0.val * 85 ^ 4 + d1.val * 85 ^ 3 + d2.val * 85 ^ 2 + d3.val * 85 + d4.val < 2 ^ 32)

/-- R50. `ENC` ignores lane 0: its effect is the same for all 256 values of it; the canonical request has 0 there. -/
def Obligations.EncIgnoresThePadLane : Prop :=
  ∀ pad pad' b0 b1 b2 b3 : Byte, ∀ s : State,
    exec (.enc pad b0 b1 b2 b3) s = exec (.enc pad' b0 b1 b2 b3) s ∧
    ((Instr.enc pad b0 b1 b2 b3).canonical = true ↔ pad = 0x00#8)

/-! ## DEC (41_decode_chunk.md) -/

/-- R60. `DEC` completes on every operand in every state. With `x_i = DIDX[c_i]` and `v` the value of those digits it
delivers `0x00 ++ w`, where `w = v` if `v < 2^32` and `w = DEC_OVF(v)` otherwise; `inv` says that some byte is no symbol,
`ovf` that `v` is at least 2^32; nothing else changes. `DEC_OVF` is uninterpreted: this holds for every choice of it.
Which first symbols overflow; the corner cases, data of an overflowing operand being that of the default of `DEC_OVF`;
all four combinations of the flags; the worked example "Hello". -/
def Obligations.DecDeliversTheValueAndFlags : Prop :=
  (∀ (c0 c1 c2 c3 c4 : Byte) (s : State), ∃ w : Word32,
    let v := (didx c0).toNat * 52200625 + (didx c1).toNat * 614125 + (didx c2).toNat * 7225 + (didx c3).toNat * 85 +
      (didx c4).toNat
    (v < 2 ^ 32 → w.toNat = v) ∧ (2 ^ 32 ≤ v → w = Config.decOvf v) ∧
    exec (.dec c0 c1 c2 c3 c4) s =
      let r : Response :=
        { dout := 0x00#8 ++ w, inv := !(dval c0 && dval c1 && dval c2 && dval c3 && dval c4), ovf := decide (2 ^ 32 ≤ v) }
      .next { s with responses := s.responses ++ [r], onOutputs := some r }) ∧
  (∀ c0 c1 c2 c3 c4 : Byte,
    let r := z85ct (encode (.dec c0 c1 c2 c3 c4))
    ((didx c0).toNat ≤ 81 → r.ovf = false) ∧
    ((didx c0).toNat = 82 → (r.ovf = true ↔
      14516045 < (didx c1).toNat * 614125 + (didx c2).toNat * 7225 + (didx c3).toNat * 85 + (didx c4).toNat)) ∧
    (c0 = 0x24#8 ∨ c0 = 0x23#8 → r.ovf = true)) ∧
  z85ct 0x13030303030#41 = { dout := 0x0000000000#40, inv := false, ovf := false } ∧
  z85ct 0x1256E536330#41 = { dout := 0x00FFFFFFFF#40, inv := false, ovf := false } ∧
  decValue 0x25#8 0x6E#8 0x53#8 0x63#8 0x31#8 = 2 ^ 32 ∧
  decResponseWith Config.decOvfDefault 0x25#8 0x6E#8 0x53#8 0x63#8 0x31#8 =
    { dout := 0x0000000000#40, inv := false, ovf := true } ∧
  decValue 0x23#8 0x23#8 0x23#8 0x23#8 0x23#8 = 85 ^ 5 - 1 ∧
  decResponseWith Config.decOvfDefault 0x23#8 0x23#8 0x23#8 0x23#8 0x23#8 =
    { dout := 0x0008780EC4#40, inv := false, ovf := true } ∧
  z85ct 0x14865206C6F#41 = { dout := 0x00864D81C2#40, inv := true, ovf := false } ∧
  z85ct 0x14865306C6F#41 = { dout := 0x00864D81C2#40, inv := false, ovf := false } ∧
  z85ct 0x10000000000#41 = { dout := 0x0000000000#40, inv := true, ovf := false } ∧
  z85ct 0x1FFFFFFFFFF#41 = { dout := 0x0000000000#40, inv := true, ovf := false } ∧
  ((z85ct 0x12323232323#41).inv = false ∧ (z85ct 0x12323232323#41).ovf = true) ∧
  ((z85ct 0x12323232320#41).inv = true ∧ (z85ct 0x12323232320#41).ovf = true) ∧
  z85ct 0x148656C6C6F#41 = { dout := 0x00864FD26F#40, inv := false, ovf := false }

/-- R47. The result of `DEC` is `0x00 ++ w`: lane 0 is zero and lanes 1 to 4 are the bytes of `w`, the most significant
first; the operand is taken from the request's lanes. `w` is the 32-bit value of R60. -/
def Obligations.DecResultLanesAreTheBytesOfTheValue : Prop :=
  ∀ c0 c1 c2 c3 c4 : Byte, ∃ w : Word32,
    let r := z85ct (requestWord true (c0 ++ c1 ++ c2 ++ c3 ++ c4))
    (decValue c0 c1 c2 c3 c4 < 2 ^ 32 → w.toNat = decValue c0 c1 c2 c3 c4) ∧
    (2 ^ 32 ≤ decValue c0 c1 c2 c3 c4 → w = Config.decOvf (decValue c0 c1 c2 c3 c4)) ∧
    r.dout.toNat = w.toNat ∧ lane r.dout 0 = 0x00#8 ∧
    r.bytes = [w.extractLsb' 24 8, w.extractLsb' 16 8, w.extractLsb' 8 8, w.extractLsb' 0 8]

/-- R14 and R15. The flags of every response delivered: of a `DEC` response `inv` is 1 exactly when some byte is no symbol
and `ovf` exactly when the decoded value is at least 2^32; of an `ENC` response both are 0. They are computed from the
request alone: the state does not enter. The data does not depend on `inv`: bytes with the same index give the same. -/
def Obligations.FlagsAreComputedFromTheRequest : Prop :=
  (∀ (c : Fin 5 → Byte) (s t : State), exec (.dec (c 0) (c 1) (c 2) (c 3) (c 4)) s = .next t →
    ∃ r, t.onOutputs = some r ∧ t.responses = s.responses ++ [r] ∧
      (r.inv = true ↔ ∃ i, dval (c i) = false) ∧
      (r.ovf = true ↔ 2 ^ 32 ≤ digitsValue (fun i => (didx (c i)).toNat))) ∧
  (∀ c c' : Fin 5 → Byte, (∀ i, didx (c i) = didx (c' i)) →
    (z85ct (encode (.dec (c 0) (c 1) (c 2) (c 3) (c 4)))).dout =
      (z85ct (encode (.dec (c' 0) (c' 1) (c' 2) (c' 3) (c' 4)))).dout) ∧
  ∀ (pad b0 b1 b2 b3 : Byte) (s t : State), exec (.enc pad b0 b1 b2 b3) s = .next t →
    ∃ r, t.onOutputs = some r ∧ t.responses = s.responses ++ [r] ∧ r.inv = false ∧ r.ovf = false

/-- R61. A byte that is not an Alphabet symbol decodes as digit 0: in every lane it gives the data and the overflow flag
that `0` (0x30) gives there, it sets `inv`, and 172 byte values act as digit 0. -/
def Obligations.NonSymbolDecodesAsDigitZero : Prop :=
  (∀ (c : Fin 5 → Byte) (k : Fin 5), dval (c k) = false →
    let c' : Fin 5 → Byte := fun i => if i = k then 0x30#8 else c i
    let r := z85ct (encode (.dec (c 0) (c 1) (c 2) (c 3) (c 4)))
    let r' := z85ct (encode (.dec (c' 0) (c' 1) (c' 2) (c' 3) (c' 4)))
    (didx (c k)).toNat = 0 ∧ r.dout = r'.dout ∧ r.ovf = r'.ovf ∧ r.inv = true) ∧
  ((List.range 256).filter (fun n => (didx (BitVec.ofNat 8 n)).toNat = 0)).length = 172

/-- The range of the sum: at most 85^5 - 1, below 2^33, and no product needs more than 33 bits. -/
def Obligations.DecValueFits33Bits : Prop :=
  (∀ c0 c1 c2 c3 c4 : Byte,
    decValue c0 c1 c2 c3 c4 ≤ 84 * (85 ^ 4 + 85 ^ 3 + 85 ^ 2 + 85 + 1) ∧
    decValue c0 c1 c2 c3 c4 ≤ 4437053124 ∧ decValue c0 c1 c2 c3 c4 < 2 ^ 33 ∧
    ∀ i, decDigit c0 c1 c2 c3 c4 i * weight i ≤ 4384852500) ∧
  ∃ c0 c1 c2 c3 c4 : Byte, decValue c0 c1 c2 c3 c4 = 85 ^ 5 - 1

/-- Where the value does not fit, the data is a function of the value alone, whatever that function is; its default is
`v mod 2^32`, here `v - 2^32`. -/
def Obligations.OverflowDataIsAFunctionOfTheValue : Prop :=
  ∃ f : Nat → Word32, ∀ c0 c1 c2 c3 c4 : Byte, 2 ^ 32 ≤ decValue c0 c1 c2 c3 c4 →
    let r := z85ct (encode (.dec c0 c1 c2 c3 c4))
    r.ovf = true ∧ r.dout.toNat = (f (decValue c0 c1 c2 c3 c4)).toNat ∧ f = Config.decOvf ∧
    (Config.decOvfDefault (decValue c0 c1 c2 c3 c4)).toNat = decValue c0 c1 c2 c3 c4 - 2 ^ 32

/-- Horner's form equals the sum, and in 32-bit wrapping arithmetic it gives the sum modulo 2^32. -/
def Obligations.HornerFormEqualsTheSum : Prop :=
  ∀ c0 c1 c2 c3 c4 : Byte,
    hornerFrom 0 (decDigits c0 c1 c2 c3 c4) = decValue c0 c1 c2 c3 c4 ∧
    hornerWrapFrom 0 (decDigits c0 c1 c2 c3 c4) = decValue c0 c1 c2 c3 c4 % 2 ^ 32

/-- The round trip on chunks. The symbols of `ENC` fed to `DEC` give the chunk back with both flags 0; and the data of
`DEC` fed to `ENC` gives the operand back exactly when both flags are 0. -/
def Obligations.ChunkRoundTrip : Prop :=
  (∀ pad b0 b1 b2 b3 : Byte,
    let e := z85ct (encode (.enc pad b0 b1 b2 b3))
    z85ct (requestWord true e.dout) =
      { dout := 0x00#8 ++ b0 ++ b1 ++ b2 ++ b3, inv := false, ovf := false }) ∧
  ∀ c0 c1 c2 c3 c4 : Byte,
    let r := z85ct (encode (.dec c0 c1 c2 c3 c4))
    (z85ct (requestWord false r.dout)).dout = c0 ++ c1 ++ c2 ++ c3 ++ c4 ↔ r.inv = false ∧ r.ovf = false

/-- Monotonicity in the trailing digits: replacing the last `j` symbols by `#` does not lower the value and raises it by
at most `85^j - 1`; replacing them by `0` does not raise it and lowers it by at most that. -/
def Obligations.DecIsMonotoneInTheTail : Prop :=
  ∀ (c : Fin 5 → Byte) (j : Nat), (∀ i, dval (c i) = true) → 1 ≤ j → j ≤ 4 →
    let tail : Byte → Fin 5 → Byte := fun b i => if i.val < 5 - j then c i else b
    let val : (Fin 5 → Byte) → Nat := fun c => decValue (c 0) (c 1) (c 2) (c 3) (c 4)
    val c ≤ val (tail 0x23#8) ∧ val (tail 0x23#8) ≤ val c + (85 ^ j - 1) ∧
    val (tail 0x30#8) ≤ val c ∧ val c ≤ val (tail 0x30#8) + (85 ^ j - 1)

/-! ## The machine (10_state.md, 60_exceptions.md, 70_reset_and_hazards.md) -/

/-- The frame of both operations: a response joins the responses and stands on the outputs; the pending requests, those
answered, every earlier response and the free index stay. (The block has no register, flag or writable memory; the tables
are constants and no part of the state.) -/
def Obligations.OperationsChangeOnlyTheResponse : Prop :=
  ∀ (i : Instr) (s t : State), exec i s = .next t →
    t.pending = s.pending ∧ t.answered = s.answered ∧ t.idleIndex = s.idleIndex ∧
    (∀ k, k < s.responses.length → readResponse t k = readResponse s k) ∧
    t.responses.length = s.responses.length + 1 ∧ t.onOutputs = readResponse t s.responses.length

/-- A step runs the decoded request: the oldest pending word is taken and what it decodes to is executed on the state
with the word accepted. The second clause is the model's choice (log 7): `withFetchWord` presents a word ahead of all that
wait, and the next step runs it. -/
def Obligations.StepRunsTheDecodedRequest : Prop :=
  (∀ (s : State) (w : ReqWord) (rest : List ReqWord), s.pending = w :: rest →
    step s = exec (decode w) { s with pending := rest, answered := s.answered ++ [w] }) ∧
  ∀ (s : State) (i : Instr),
    step (s.withFetchWord 41 (encode i).toNat) = exec i { s with answered := s.answered ++ [encode i] }

/-- The model's choice (log 2): a step with no request pending idles. It answers nothing, the outputs show nobody's
response, and every request and response stays. -/
def Obligations.IdleStepAnswersNothing : Prop :=
  ∀ s : State, s.pending = [] → ∃ t, step s = .next t ∧
    t.pending = [] ∧ t.answered = s.answered ∧ t.responses = s.responses ∧ t.onOutputs = none

/-- The block raises nothing: in every state, on every operation and in every step, there is a next state. -/
def Obligations.NothingFaults : Prop :=
  (∀ (i : Instr) (s : State), ∃ t, exec i s = .next t) ∧ ∀ s : State, ∃ t, step s = .next t

/-- After reset nothing is pending, nobody has asked for what the outputs show, every response read is absent, and the
first response carries the flags and data of its own request. (The empty histories are the model's: log 1.) -/
def Obligations.ResetHoldsNoRequest : Prop :=
  State.reset.pending = [] ∧ State.reset.onOutputs = none ∧ (∀ k, readResponse State.reset k = none) ∧
  ∀ w : ReqWord, ∃ t, step (present w State.reset) = .next t ∧ t.responses = [z85ct w] ∧ t.answered = [w]

/-- A reset drops the unanswered requests; a request presented again gets the response it would have got. Two clauses
are the model's: that its histories of answered requests and delivered responses stay through a reset (DEDUCED, log 8),
and that the outputs then show nobody's response (DESIGN CHOICE, log 3). -/
def Obligations.ResetDropsUnansweredRequests : Prop :=
  ∀ (s : State) (w : ReqWord) (rest : List ReqWord), s.pending = w :: rest →
    (applyReset s).pending = [] ∧ (applyReset s).responses = s.responses ∧ (applyReset s).answered = s.answered ∧
    (applyReset s).onOutputs = none ∧
    ∃ t t', step s = .next t ∧ step (present w (applyReset s)) = .next t' ∧ t'.responses = t.responses ∧
      t'.answered = t.answered ∧ t'.pending = []

/-- A response is a function of its own request: two states with equal next requests, alike in nothing else, get equal
responses. -/
def Obligations.ResponseDependsOnTheRequestAlone : Prop :=
  ∀ (s s' : State) (w : ReqWord) (rest rest' : List ReqWord), s.pending = w :: rest → s'.pending = w :: rest' →
    ∃ t t' r, step s = .next t ∧ step s' = .next t' ∧ t.responses = s.responses ++ [r] ∧
      t'.responses = s'.responses ++ [r] ∧ outputs t = r.word ∧ outputs t' = r.word

/-- The pairing of requests and responses holds right after reset. -/
def Obligations.PairedAtReset : Prop := Paired State.reset

/-- The pairing of requests and responses is kept by every step, from every state that has it. -/
def Obligations.StepKeepsPaired : Prop :=
  ∀ s t : State, Paired s → step s = .next t → Paired t

/-- The pairing is kept by whatever the host does between steps: presenting a request, resetting. -/
def Obligations.HostInputsKeepPaired : Prop :=
  ∀ (s : State) (es : List HostInput), Paired s → Paired (es.foldl (fun s e => e.apply s) s)

/-- R110. The block answers every pending request, in order, in as many steps as there are requests: it does not reorder,
drop, duplicate or merge. -/
def Obligations.RunAnswersEveryRequestInOrder : Prop :=
  ∀ s : State, ∃ t : State, Host.Core.run core s.pending.length s = .next t ∧
    t.pending = [] ∧ t.answered = s.answered ++ s.pending ∧
    t.responses = s.responses ++ s.pending.map z85ct

/-- The order in which hosts present their requests does not matter: the same words in any other order give the same
pairs of request and response. -/
def Obligations.OrderOfRequestsDoesNotMatter : Prop :=
  ∀ (s : State) (ws ws' : List ReqWord), s.pending = [] → ws.Perm ws' →
    ∃ (t t' : State) (rs rs' : List Response),
      Host.Core.run core ws.length (presentAll ws s) = .next t ∧
      Host.Core.run core ws'.length (presentAll ws' s) = .next t' ∧
      t.responses = s.responses ++ rs ∧ t'.responses = s.responses ++ rs' ∧
      rs.length = ws.length ∧ rs'.length = ws'.length ∧ (ws.zip rs).Perm (ws'.zip rs')

/-! ## The host procedures (42_host_framing.md) -/

/-- R71. Bulk `encode`: empty input yields empty output; a full group of 4 contributes its five symbols and the rest is
encoded after it; a partial group of `r` bytes is zero-padded on the right and the first `r + 1` symbols are kept;
`ceil(n/4)` requests are made. `encode([42])` is "li". -/
def Obligations.BulkEncodeByGroups : Prop :=
  encodeBytes [] = [] ∧
  (∀ (b0 b1 b2 b3 : Byte) (rest : List Byte),
    encodeBytes (b0 :: b1 :: b2 :: b3 :: rest) =
      (z85ct (encode (.enc 0x00#8 b0 b1 b2 b3))).symbols ++ encodeBytes rest) ∧
  (∀ p : List Byte, 1 ≤ p.length → p.length ≤ 3 →
    encodeBytes p = (hostEnc (p ++ List.replicate (4 - p.length) 0x00#8)).take (p.length + 1)) ∧
  (∀ b : List Byte, (encodeRequests b).length = (b.length + 3) / 4) ∧
  encodeBytes [0x42#8] = [0x6C#8, 0x69#8]

/-- The length law of `encode`, in both of the document's forms; no encoded text has a length of 1 modulo 5. -/
def Obligations.BulkEncodeLength : Prop :=
  ∀ b : List Byte,
    (encodeBytes b).length = 5 * (b.length / 4) + (if b.length % 4 = 0 then 0 else b.length % 4 + 1) ∧
    (encodeBytes b).length = b.length + (b.length + 3) / 4 ∧ (encodeBytes b).length % 5 ≠ 1

/-- R74. Bulk `decode`: empty input yields empty output; a full group of 5 contributes its four bytes and the rest is
decoded after it; a partial group of `r` symbols is padded on the right with `#` and the first `r - 1` bytes are kept;
at most `ceil(m/5)` requests are made, one fewer only where the trailing group has one symbol; the length law.
`decode("li")` is `[42]`. -/
def Obligations.BulkDecodeByGroups : Prop :=
  decodeText [] = [] ∧
  (∀ (c0 c1 c2 c3 c4 : Byte) (rest : List Byte),
    decodeText (c0 :: c1 :: c2 :: c3 :: c4 :: rest) =
      (z85ct (encode (.dec c0 c1 c2 c3 c4))).bytes ++ decodeText rest) ∧
  (∀ p : List Byte, 1 ≤ p.length → p.length ≤ 4 →
    decodeText p = (hostDec (p ++ List.replicate (5 - p.length) 0x23#8)).take (p.length - 1)) ∧
  (∀ t : List Byte,
    (decodeText t).length = 4 * (t.length / 5) + (if t.length % 5 = 0 then 0 else t.length % 5 - 1) ∧
    ((decodeRequests t).length = (t.length + 4) / 5 ∨
      t.length % 5 = 1 ∧ (decodeRequests t).length + 1 = (t.length + 4) / 5)) ∧
  decodeText [0x6C#8, 0x69#8] = [0x42#8]

/-- A trailing group of exactly one symbol yields no bytes, with no error: the output is that of the text before
it. -/
def Obligations.OneTrailingSymbolYieldsNoByte : Prop :=
  (∀ (t : List Byte) (c : Byte), t.length % 5 = 0 →
    decodeText (t ++ [c]) = decodeText t ∧ decodeTextWith false (t ++ [c]) = .ok (decodeText t)) ∧
  decodeText [0x48#8] = [] ∧
  decodeText [0x48#8, 0x65#8, 0x6C#8, 0x6C#8, 0x6F#8, 0x57#8] = [0x86#8, 0x4F#8, 0xD2#8, 0x6F#8]

/-- The two pad values are not interchangeable: the text of `[42]` padded with `#` decodes to a chunk that begins with
0x42, padded with `0` to one that begins with 0x41. -/
def Obligations.PadValuesAreNotInterchangeable : Prop :=
  zeroPad = 0x00#8 ∧ padSymbol = 0x23#8 ∧ padSymbol = alpha 84 ∧
  hostDec (encodeBytes [0x42#8] ++ List.replicate 3 padSymbol) = [0x42#8, 0x08#8, 0xEE#8, 0x1B#8] ∧
  hostDec (encodeBytes [0x42#8] ++ List.replicate 3 (alpha 0)) = [0x41#8, 0xFF#8, 0x8F#8, 0x2F#8]

/-- The round trip of the bulk codec: decoding an encoded byte sequence gives it back, for every sequence, and no response
on the way is flagged, so that a strict host gets the same. -/
def Obligations.BulkRoundTrip : Prop :=
  ∀ b : List Byte, decodeText (encodeBytes b) = b ∧ ∀ strict, decodeTextWith strict (encodeBytes b) = .ok b

/-- `STRICT` in bulk. A permissive host never fails; that a strict one does, with "invalid symbol", is the model's choice
(log 14; R89 says it may): exactly when a transaction it makes (of a one-symbol last group: log 13) has `inv = 1` or `ovf = 1`, and otherwise gets what the permissive one gets; the first group of a text it accepts
has only symbols and a value below 2^32. -/
def Obligations.StrictDecodeRejectsFlaggedGroups : Prop :=
  ∀ t : List Byte,
    decodeTextWith false t = .ok (decodeText t) ∧
    (decodeTextWith true t = .error .invalidSymbol ↔
      ∃ w ∈ decodeRequests t, (z85ct w).inv = true ∨ (z85ct w).ovf = true) ∧
    (∀ out, decodeTextWith true t = .ok out →
      out = decodeText t ∧ ∀ c0 c1 c2 c3 c4 rest, t = c0 :: c1 :: c2 :: c3 :: c4 :: rest →
        dval c0 = true ∧ dval c1 = true ∧ dval c2 = true ∧ dval c3 = true ∧ dval c4 = true ∧
        decValue c0 c1 c2 c3 c4 < 2 ^ 32)

/-- Bulk `encode` runs on the block: presenting its requests to a block that is waiting and stepping it once for each,
`ceil(n/4)` steps, delivers responses that the host assembles to `encode(b)`. -/
def Obligations.BulkEncodeRunsOnTheBlock : Prop :=
  ∀ (s : State) (b : List Byte), s.pending = [] →
    ∃ (t : State) (rs : List Response),
      Host.Core.run core ((b.length + 3) / 4) (presentAll (encodeRequests b) s) = .next t ∧
      t.pending = [] ∧ t.responses = s.responses ++ rs ∧ assembleEncoded b.length rs = encodeBytes b

/-- Bulk `decode` runs on the block, likewise, whether or not the transaction of a one-symbol trailing group is made (one
open choice of the model: log 13). -/
def Obligations.BulkDecodeRunsOnTheBlock : Prop :=
  ∀ (s : State) (text : List Byte), s.pending = [] →
    ∃ (t : State) (rs : List Response),
      Host.Core.run core (decodeRequests text).length (presentAll (decodeRequests text) s) = .next t ∧
      t.pending = [] ∧ t.responses = s.responses ++ rs ∧ assembleDecoded text.length rs = decodeText text

/-- A sink that answers `ok` has the whole group appended; one that fails has at most a proper prefix of it appended. -/
def Obligations.PutAppendsTheGroupOrAProperPrefix : Prop :=
  ∀ (k k' : Sink) (g : List Byte) (e : Option HostError), g ≠ [] → k.put g = (k', e) →
    (e = none → k'.content = k.content ++ g) ∧
    ∀ x, e = some x → ∃ p, k'.content = k.content ++ p ∧ p <+: g ∧ p.length < g.length

/-- R78 and R84 as an invariant: a new instance is open and carries nothing, and every call keeps fewer carried elements
than a group has, even after a failure (log 12). -/
def Obligations.CarryAlwaysFits : Prop :=
  (∀ d strict k, CarryFits (Stream.create d strict k) ∧ (Stream.create d strict k).carry = [] ∧
    (Stream.create d strict k).status = .opened ∧ (Stream.create d strict k).closed = false) ∧
  ∀ (s : Stream) (c : Call), CarryFits s → CarryFits (s.call c)

/-- What a `write` reports: `(len(p), nil)` where nothing failed, and with an error a count that is 0 or `len(p)`, of which
no claim is made. A write too short to complete the pending group appends to it and emits nothing, no transaction and no
put; in particular an empty write changes nothing. -/
def Obligations.WriteReportsItsLengthAndCarries : Prop :=
  (∀ (s : Stream) (p : List Byte),
    ((s.write p).2.error = none → (s.write p).2.count = p.length) ∧
    ((s.write p).2.error ≠ none → (s.write p).2.count = 0 ∨ (s.write p).2.count = p.length)) ∧
  ∀ (s : Stream) (p : List Byte), s.status = .opened → s.closed = false →
    s.carry.length + p.length < s.direction.size →
    s.write p = ({ s with carry := s.carry ++ p }, { count := p.length, error := none })

/-- R80. The sticky error. If any `put` of a `write` or `close` answers `fail(e)`, the call returns `e` and leaves the
instance in `Error(e)`: the puts of a call are the entries it adds to the sink, and the sink answers them in order (log
10, log 19 for how the model writes this down). In particular an open instance whose sink fails next fails with `e` on a
`write` that completes a group and on a `close` that has something to put, unless a strict decoder rejects the group
first. A call that returns a sink error leaves the instance in `Error` of it; and once an instance is in `Error(e)`,
after any history of calls every call returns `e`, nothing is put, no transaction is made and the state stays as it is,
but for `closed`. -/
def Obligations.StickyErrorIsForEver : Prop :=
  (∀ (s : Stream) (c : Call), ∃ puts : List (List Byte),
    (s.call c).sink.received = s.sink.received ++ puts ∧
    (s.call c).sink.answers = s.sink.answers.drop puts.length ∧
    ∀ e kept, .fail e kept ∈ s.sink.answers.take puts.length →
      s.callError c = some (.sink e) ∧ (s.call c).status = .error (.sink e)) ∧
  (∀ (s : Stream) (e kept : Nat) (rest : List SinkAnswer), s.status = .opened → s.closed = false → CarryFits s →
    s.sink.answers = .fail e kept :: rest →
    (∀ p, s.direction.size ≤ (s.carry ++ p).length →
      s.direction.rejects s.strict (z85ct (s.direction.request ((s.carry ++ p).take s.direction.size))) = false →
      (s.write p).2 = { count := rejectedWriteCount p.length, error := some (.sink e) } ∧
      (s.write p).1.status = .error (.sink e) ∧ (s.write p).1.sink.answers = rest) ∧
    (s.carry ≠ [] → 0 < s.direction.keep s.carry.length →
      s.direction.rejects s.strict (z85ct (s.direction.request
        (s.carry ++ List.replicate (s.direction.size - s.carry.length) s.direction.pad))) = false →
      s.close.2 = some (.sink e) ∧ s.close.1.status = .error (.sink e) ∧ s.close.1.closed = true ∧
      s.close.1.sink.answers = rest)) ∧
  (∀ (s : Stream) (c : Call) (e : Nat), s.callError c = some (.sink e) → (s.call c).status = .error (.sink e)) ∧
  ∀ (s : Stream) (e : HostError) (cs : List Call), s.status = .error e →
    ∃ closed, s.calls cs = { s with closed := closed } ∧ ∀ c, (s.calls cs).callError c = some e

/-- R82. A `write` after `close` is an error and has no effect: `ErrClosed`, which is no sink error, on an instance whose
status is `Open`, the sticky error on one in `Error(e)`. -/
def Obligations.WriteAfterCloseHasNoEffect : Prop :=
  ∀ (s : Stream) (p : List Byte), s.closed = true →
    (s.status = .opened → s.write p = (s, { count := rejectedWriteCount p.length, error := some .closed })) ∧
    (∀ e, s.status = .error e → s.write p = (s, { count := rejectedWriteCount p.length, error := some e })) ∧
    ∀ e, HostError.closed ≠ .sink e

/-- A second `close` emits nothing, changes nothing and returns the error recorded, or nil. -/
def Obligations.SecondCloseIsANoOp : Prop :=
  ∀ s : Stream,
    let t := s.close.1
    t.closed = true ∧ t.close.1 = t ∧
    (t.status = .opened → t.close.2 = none) ∧ ∀ e, t.status = .error e → t.close.2 = some e

/-- R83. The streaming encoder equals the bulk one, however the bytes are split: if no `put` fails, what it has put when it
is closed is `encode(b)`, it made the bulk procedure's transactions in the same order, and no error is recorded. -/
def Obligations.StreamEncoderEqualsBulkEncode : Prop :=
  ∀ (strict : Bool) (k : Sink) (ps : List (List Byte)), NeverFails k →
    let s := (Stream.create .encoder strict k).run ps
    s.sink.content = k.content ++ encodeBytes ps.flatten ∧ s.presented = encodeRequests ps.flatten ∧
    s.status = .opened ∧ s.closed = true ∧ s.carry = []

/-- The streaming decoder equals the bulk one, however the text is split: if no `put` fails, what a permissive decoder has
put when it is closed is `decode(t)`. That its transactions are the bulk procedure's, in the same order, is the model's
choice (log 13): one open choice says of both hosts whether they make the transaction of a one-symbol last group. -/
def Obligations.StreamDecoderEqualsBulkDecode : Prop :=
  ∀ (k : Sink) (ps : List (List Byte)), NeverFails k →
    let s := (Stream.create .decoder false k).run ps
    s.sink.content = k.content ++ decodeText ps.flatten ∧ s.presented = decodeRequests ps.flatten ∧
    s.status = .opened ∧ s.closed = true ∧ s.carry = []

/-- End to end: a byte sequence written to a streaming encoder in any pieces, and the text it put written to a streaming
decoder in any other pieces, strict or not, comes out as it was. -/
def Obligations.StreamingRoundTrip : Prop :=
  ∀ (strict strict' : Bool) (k k' : Sink) (ps qs : List (List Byte)), NeverFails k → NeverFails k' →
    k.received = [] → k'.received = [] →
    qs.flatten = ((Stream.create .encoder strict k).run ps).sink.content →
    ((Stream.create .decoder strict' k').run qs).sink.content = ps.flatten

/-- A run whose sink may fail leaves a prefix of the full output in the sink, whatever the sink's answers and however much
of a failing group it kept; and if no error is recorded, the whole of it. -/
def Obligations.FailedRunLeavesAPrefix : Prop :=
  ∀ (answers : List SinkAnswer) (ps : List (List Byte)),
    let k : Sink := { received := [], answers := answers }
    let e := (Stream.create .encoder false k).run ps
    let d := (Stream.create .decoder false k).run ps
    e.sink.content <+: encodeBytes ps.flatten ∧ (e.status = .opened → e.sink.content = encodeBytes ps.flatten) ∧
    d.sink.content <+: decodeText ps.flatten ∧ (d.status = .opened → d.sink.content = decodeText ps.flatten)

/-- Instances share nothing: after any interleaved history, each instance is as its own calls, in their order, leave
it. -/
def Obligations.InstancesAreIndependent : Prop :=
  ∀ (ss : List Stream) (history : List (Nat × Call)) (i : Nat),
    (callsAt ss history)[i]? =
      ss[i]?.map (fun s => s.calls ((history.filter (fun h => h.1 = i)).map Prod.snd))

/-- `STRICT` in the streaming decoder, the model's choice (log 14; R89 says a strict decoder may fail). An open strict
decoder that meets a flagged group fails with "invalid symbol" and puts nothing of it, and the groups before it stand: in a
`write`, where group `k` of what is carried and written is the first flagged one and the sink answers `ok` to the `k`
groups before it; in a `close`, where the padded last group is flagged, of one symbol only if its transaction is made
(log 13). What the instance is then is open but for one of two values. Where no group whose
transaction is made is flagged, a call does what it does on a permissive decoder. -/
def Obligations.StrictDecoderPutsNothingOfAFlaggedGroup : Prop :=
  ∀ s : Stream, s.direction = .decoder → s.strict = true → s.status = .opened → s.closed = false → CarryFits s →
    let permissive : Stream := { s with strict := false }
    let last := s.carry ++ List.replicate (5 - s.carry.length) padSymbol
    (∀ (p : List Byte) (k : Nat),
      let text := s.carry ++ p
      let request : Nat → ReqWord := fun j => decRequest (slice text (5 * j) (5 * j + 5))
      5 * k + 5 ≤ text.length → (∀ j, j < k → flagged (z85ct (request j)) = false) →
      flagged (z85ct (request k)) = true → (∀ a ∈ s.sink.answers.take k, a = .ok) →
      (s.write p).2 = { count := rejectedWriteCount p.length, error := some .invalidSymbol } ∧
      (s.write p).1.sink.content = s.sink.content ++ decodeText (text.take (5 * k)) ∧
      (s.write p).1.presented = s.presented ++ (List.range (k + 1)).map request ∧
      ((s.write p).1.status = .opened ∨ (s.write p).1.status = .error .invalidSymbol)) ∧
    (∀ p : List Byte,
      (∀ j, 5 * j + 5 ≤ (s.carry ++ p).length →
        flagged (z85ct (decRequest (slice (s.carry ++ p) (5 * j) (5 * j + 5)))) = false) →
      s.write p = ({ (permissive.write p).1 with strict := true }, (permissive.write p).2)) ∧
    (s.carry ≠ [] → 2 ≤ s.carry.length ∨ Config.skipsOneSymbolGroup = false → flagged (z85ct (decRequest last)) = true →
      s.close.2 = some .invalidSymbol ∧ s.close.1.sink = s.sink ∧ s.close.1.closed = true ∧
      s.close.1.presented = s.presented ++ [decRequest last] ∧
      (s.close.1.status = .opened ∨ s.close.1.status = .error .invalidSymbol)) ∧
    (s.carry = [] ∨ s.carry.length = 1 ∧ Config.skipsOneSymbolGroup = true ∨ flagged (z85ct (decRequest last)) = false →
      s.close = ({ permissive.close.1 with strict := true }, permissive.close.2))
end

