-- ==== Sys2Proof/Laws/Lanes.lean ====
section
/-! SUPPORT. Packing and reading lanes: what goes into a lane is what is read from it, and the lanes of a word make up
its value. -/

namespace Sys2Proof

/-- Concatenation on values: the left part in the more significant bits (R6). -/
theorem append_toNat {m n : Nat} (x : BitVec m) (y : BitVec n) : (x ++ y).toNat = x.toNat * 2 ^ n + y.toNat := by
  rw [BitVec.toNat_append, ← Nat.shiftLeft_add_eq_or_of_lt y.isLt, Nat.shiftLeft_eq]

theorem lane_packLanes_0 (a b c d e : Byte) : lane (packLanes a b c d e) 0 = a := by
  ext i hi; simp [lane, packLanes]; grind

theorem lane_packLanes_1 (a b c d e : Byte) : lane (packLanes a b c d e) 1 = b := by
  ext i hi; simp [lane, packLanes]; grind

theorem lane_packLanes_2 (a b c d e : Byte) : lane (packLanes a b c d e) 2 = c := by
  ext i hi; simp [lane, packLanes]; grind

theorem lane_packLanes_3 (a b c d e : Byte) : lane (packLanes a b c d e) 3 = d := by
  ext i hi; simp [lane, packLanes]; grind

theorem lane_packLanes_4 (a b c d e : Byte) : lane (packLanes a b c d e) 4 = e := by
  ext i hi; simp [lane, packLanes]; grind

/-- The value of five lanes is their big-endian value. -/
theorem packLanes_toNat (a b c d e : Byte) :
    (packLanes a b c d e).toNat =
      a.toNat * 2 ^ 32 + b.toNat * 2 ^ 24 + c.toNat * 2 ^ 16 + d.toNat * 2 ^ 8 + e.toNat := by
  unfold packLanes
  rw [append_toNat, append_toNat, append_toNat, append_toNat]
  omega

theorem reqOp_requestWord (op : Bool) (d : Lanes) : reqOp (requestWord op d) = op := by
  unfold reqOp requestWord
  rw [BitVec.getLsbD_append]
  simp

theorem reqDin_requestWord (op : Bool) (d : Lanes) : reqDin (requestWord op d) = d := by
  ext i hi
  unfold reqDin requestWord
  rw [BitVec.getElem_extractLsb', BitVec.getLsbD_append]
  simp [hi]

end Sys2Proof
end

