-- ==== Sys2Proof/Laws/State.lean ====
section
/-! SUPPORT. One lemma per field per update of the state, so that no later proof unfolds a record update. -/

namespace Sys2Proof.Machine

@[simp] theorem deliver_pending (r : Response) (s : State) : (deliver r s).pending = s.pending := rfl

@[simp] theorem deliver_answered (r : Response) (s : State) : (deliver r s).answered = s.answered := rfl

@[simp] theorem deliver_responses (r : Response) (s : State) : (deliver r s).responses = s.responses ++ [r] := rfl

@[simp] theorem deliver_onOutputs (r : Response) (s : State) : (deliver r s).onOutputs = some r := rfl

@[simp] theorem deliver_idleIndex (r : Response) (s : State) : (deliver r s).idleIndex = s.idleIndex := rfl

@[simp] theorem idle_pending (s : State) : (idle s).pending = s.pending := rfl

@[simp] theorem idle_answered (s : State) : (idle s).answered = s.answered := rfl

@[simp] theorem idle_responses (s : State) : (idle s).responses = s.responses := rfl

@[simp] theorem idle_onOutputs (s : State) : (idle s).onOutputs = none := rfl

@[simp] theorem idle_idleIndex (s : State) : (idle s).idleIndex = s.idleIndex + 1 := rfl

@[simp] theorem present_pending (w : ReqWord) (s : State) : (present w s).pending = s.pending ++ [w] := rfl

@[simp] theorem present_answered (w : ReqWord) (s : State) : (present w s).answered = s.answered := rfl

@[simp] theorem present_responses (w : ReqWord) (s : State) : (present w s).responses = s.responses := rfl

@[simp] theorem present_onOutputs (w : ReqWord) (s : State) : (present w s).onOutputs = s.onOutputs := rfl

@[simp] theorem present_idleIndex (w : ReqWord) (s : State) : (present w s).idleIndex = s.idleIndex := rfl

@[simp] theorem presentAll_pending (ws : List ReqWord) (s : State) : (presentAll ws s).pending = s.pending ++ ws := rfl

@[simp] theorem presentAll_answered (ws : List ReqWord) (s : State) : (presentAll ws s).answered = s.answered := rfl

@[simp] theorem presentAll_responses (ws : List ReqWord) (s : State) : (presentAll ws s).responses = s.responses := rfl

@[simp] theorem presentAll_onOutputs (ws : List ReqWord) (s : State) : (presentAll ws s).onOutputs = s.onOutputs := rfl

@[simp] theorem presentAll_idleIndex (ws : List ReqWord) (s : State) : (presentAll ws s).idleIndex = s.idleIndex := rfl

@[simp] theorem applyReset_pending (s : State) : (applyReset s).pending = [] := rfl

@[simp] theorem applyReset_answered (s : State) : (applyReset s).answered = s.answered := rfl

@[simp] theorem applyReset_responses (s : State) : (applyReset s).responses = s.responses := rfl

@[simp] theorem applyReset_onOutputs (s : State) : (applyReset s).onOutputs = none := rfl

@[simp] theorem applyReset_idleIndex (s : State) : (applyReset s).idleIndex = s.idleIndex + 1 := rfl

@[simp] theorem placeNext_pending (w : ReqWord) (s : State) : (placeNext w s).pending = w :: s.pending := rfl

@[simp] theorem placeNext_answered (w : ReqWord) (s : State) : (placeNext w s).answered = s.answered := rfl

@[simp] theorem placeNext_responses (w : ReqWord) (s : State) : (placeNext w s).responses = s.responses := rfl

@[simp] theorem placeNext_onOutputs (w : ReqWord) (s : State) : (placeNext w s).onOutputs = s.onOutputs := rfl

@[simp] theorem placeNext_idleIndex (w : ReqWord) (s : State) : (placeNext w s).idleIndex = s.idleIndex := rfl

/-- Taking a request moves it from `pending` to `answered` and touches nothing else. -/
theorem fetch_cons (s : State) (w : ReqWord) (rest : List ReqWord) (h : s.pending = w :: rest) :
    fetch s = some (w, { s with pending := rest, answered := s.answered ++ [w] }) := by
  simp [fetch, h]

theorem fetch_nil (s : State) (h : s.pending = []) : fetch s = none := by
  simp [fetch, h]

end Sys2Proof.Machine
end

