-- ==== Sys2Proof/Laws/Machine.lean ====
section
/-! SUPPORT. What `exec` and `step` can do, said once: an operation delivers its response, and a step answers the oldest
request or idles. -/

namespace Sys2Proof.Machine

/-- Every operation delivers the response that the block's function gives, and does nothing else. -/
theorem exec_eq_deliver (i : Instr) (s : State) : exec i s = .next (deliver (respond i) s) := by
  cases i <;> rfl

/-- A step with a request pending. -/
theorem step_of_pending (s : State) (w : ReqWord) (rest : List ReqWord) (h : s.pending = w :: rest) :
    step s = .next (deliver (z85ct w) { s with pending := rest, answered := s.answered ++ [w] }) := by
  simp only [step, fetch_cons s w rest h, exec_eq_deliver, z85ct]

/-- A step with none. -/
theorem step_of_no_request (s : State) (h : s.pending = []) : step s = .next (idle s) := by
  simp only [step, fetch_nil s h]

/-- Everything a step can do. -/
theorem step_cases (s t : State) (h : step s = .next t) :
    (s.pending = [] ∧ t = idle s) ∨
      ∃ w rest, s.pending = w :: rest ∧
        t = deliver (z85ct w) { s with pending := rest, answered := s.answered ++ [w] } := by
  cases hp : s.pending with
  | nil =>
    rw [step_of_no_request s hp] at h
    exact .inl ⟨rfl, (Host.Outcome.next.inj h).symm⟩
  | cons w rest =>
    rw [step_of_pending s w rest hp] at h
    exact .inr ⟨w, rest, rfl, (Host.Outcome.next.inj h).symm⟩

end Sys2Proof.Machine
end

