-- ==== Sys2Proof/Laws/PerInstr.lean ====
section
/-! SUPPORT. Statements made for every instruction, one lemma per constructor. -/

namespace Sys2Proof.Laws.OpBit

/-- Bit 40 of an instruction's request word is its row's opcode bit (R48): 0 for `ENC`, 1 for `DEC`. -/
def Statement (i : Instr) : Prop :=
  reqOp (encode i) = (match i with | .enc _ _ _ _ _ => false | .dec _ _ _ _ _ => true)

theorem enc (pad b0 b1 b2 b3 : Byte) : Statement (.enc pad b0 b1 b2 b3) := by
  simp [Statement, encode, reqOp_requestWord]

theorem dec (c0 c1 c2 c3 c4 : Byte) : Statement (.dec c0 c1 c2 c3 c4) := by
  simp [Statement, encode, reqOp_requestWord]

end Sys2Proof.Laws.OpBit
end

