-- ==== Sys2Proof/Laws/Stream.lean ====
section
/-! SUPPORT. What a `put`, one group and a `write` of a streaming instance can do, said once. -/

namespace Sys2Proof.Machine

/-- Everything a `put` can do (R77): the sink received the group and goes on, or it answered a failure and received at
most a proper prefix of the group. -/
theorem put_cases (k k' : Sink) (s : List Byte) (e : Option HostError) (h : k.put s = (k', e)) :
    (e = none ∧ k'.received = k.received ++ [s] ∧ k'.answers = k.answers.tail) ∨
      ∃ n kept, e = some (.sink n) ∧ k.answers.head? = some (.fail n kept) ∧
        k'.received = k.received ++ [s.take (min kept (s.length - 1))] ∧ k'.answers = k.answers.tail := by
  unfold Sink.put at h
  split at h <;> cases h <;> simp_all

/-- A sink that never fails stays one and receives the whole group. -/
theorem put_of_neverFails (k : Sink) (s : List Byte) (h : NeverFails k) :
    ∃ k', k.put s = (k', none) ∧ k'.content = k.content ++ s ∧ NeverFails k' := by
  obtain ⟨received, answers⟩ := k
  match answers with
  | [] => exact ⟨_, rfl, by simp [Sink.content], h⟩
  | .ok :: rest =>
    exact ⟨_, rfl, by simp [Sink.content], fun a ha => h a (List.mem_cons_of_mem _ ha)⟩
  | .fail e kept :: rest => exact absurd (h _ List.mem_cons_self) (by simp)

/-- One group of an instance whose response is not rejected and whose sink never fails: the request is presented, the
kept elements of the output are put, and nothing else of the instance changes but its sink. -/
theorem emit_of_neverFails (s : Stream) (g : List Byte) (keep : Nat) (hk : NeverFails s.sink)
    (hr : s.direction.rejects s.strict (z85ct (s.direction.request g)) = false) :
    ∃ k', s.emit g keep = ({ s with presented := s.presented ++ [s.direction.request g], sink := k' }, none) ∧
      k'.content = s.sink.content ++ (s.direction.output (z85ct (s.direction.request g))).take keep ∧
      NeverFails k' := by
  unfold Stream.emit
  simp only [hr, Bool.false_eq_true, if_false]
  by_cases h0 : keep = 0
  · subst h0
    exact ⟨s.sink, by simp, by simp, hk⟩
  · simp only [if_neg h0]
    obtain ⟨k', hp, hc, hn⟩ :=
      put_of_neverFails s.sink ((s.direction.output (z85ct (s.direction.request g))).take keep) hk
    exact ⟨k', by rw [hp], hc, hn⟩

@[simp] theorem sinkFailed_status (s : Stream) (e : HostError) : (s.sinkFailed e).status = .error e := rfl
@[simp] theorem sinkFailed_sink (s : Stream) (e : HostError) : (s.sinkFailed e).sink = s.sink := rfl
@[simp] theorem sinkFailed_closed (s : Stream) (e : HostError) : (s.sinkFailed e).closed = s.closed := rfl
@[simp] theorem sinkFailed_presented (s : Stream) (e : HostError) : (s.sinkFailed e).presented = s.presented := rfl
@[simp] theorem sinkFailed_direction (s : Stream) (e : HostError) : (s.sinkFailed e).direction = s.direction := rfl
@[simp] theorem strictFailed_sink (s : Stream) : s.strictFailed.sink = s.sink := rfl
@[simp] theorem strictFailed_closed (s : Stream) : s.strictFailed.closed = s.closed := rfl
@[simp] theorem strictFailed_presented (s : Stream) : s.strictFailed.presented = s.presented := rfl
@[simp] theorem strictFailed_direction (s : Stream) : s.strictFailed.direction = s.direction := rfl

/-- After a strict rejection the status is one of two values (log 14). -/
theorem strictFailed_status (s : Stream) :
    s.strictFailed.status = .opened ∨ s.strictFailed.status = .error .invalidSymbol := by
  unfold Stream.strictFailed
  cases Config.strictFailureSticks <;> simp

/-- Everything one group can do (R77, R79, R89): its request is presented; then it is rejected, or there is nothing to
put, or the kept elements are put and the sink answers `ok`, or the sink fails and its error is remembered. -/
theorem emit_cases (s t : Stream) (g : List Byte) (keep : Nat) (e : Option HostError) (h : s.emit g keep = (t, e)) :
    let w := s.direction.request g
    let s1 : Stream := { s with presented := s.presented ++ [w] }
    let out := (s.direction.output (z85ct w)).take keep
    (s.direction.rejects s.strict (z85ct w) = true ∧ e = some .invalidSymbol ∧ t = s1.strictFailed) ∨
      s.direction.rejects s.strict (z85ct w) = false ∧
        ((keep = 0 ∧ e = none ∧ t = s1) ∨
          (keep ≠ 0 ∧ e = none ∧ ∃ k, s.sink.put out = (k, none) ∧ t = { s1 with sink := k }) ∨
          (keep ≠ 0 ∧ ∃ x k, e = some (.sink x) ∧ s.sink.put out = (k, some (.sink x)) ∧
            t = { s1 with sink := k }.sinkFailed (.sink x))) := by
  simp only [Stream.emit] at h
  split at h
  · next hr => cases h; exact .inl ⟨hr, rfl, rfl⟩
  · next hr =>
    refine .inr ⟨by simpa using hr, ?_⟩
    split at h
    · next hk => cases h; exact .inl ⟨hk, rfl, rfl⟩
    · next hk =>
      split at h
      · next k hp => cases h; exact .inr (.inl ⟨hk, rfl, k, hp, rfl⟩)
      · next k x hp =>
        cases h
        rcases put_cases _ _ _ _ hp with ⟨hn, _⟩ | ⟨n, _, hn, _⟩ <;> cases hn
        exact .inr (.inr ⟨hk, n, k, rfl, hp, rfl⟩)

/-- A `write`'s work is the loop over the whole groups of what is carried and what is written together (R79, R85). -/
theorem absorb_eq_emitGroups (s : Stream) (p : List Byte) (h : CarryFits s) :
    s.absorb p = { s with carry := [] }.emitGroups ((s.carry ++ p).length / s.direction.size) (s.carry ++ p) := by
  have hfit : s.carry.length < s.direction.size := h
  obtain ⟨direction, strict, carry, status, closed, sink, presented⟩ := s
  simp only [Stream.absorb] at hfit ⊢
  by_cases hc : carry = []
  · subst hc; simp
  simp only [if_neg hc]
  by_cases hlen : direction.size ≤ (carry ++ p).length
  · have hl : direction.size - carry.length ≤ p.length := by simp at hlen; omega
    have hpend : (carry ++ p.take (direction.size - carry.length)).length = direction.size := by simp; omega
    have htake : (carry ++ p).take direction.size = carry ++ p.take (direction.size - carry.length) := by
      rw [List.take_append, List.take_of_length_le (by omega)]
    have hdrop : (carry ++ p).drop direction.size = p.drop (direction.size - carry.length) := by
      rw [List.drop_append, List.drop_of_length_le (by omega), List.nil_append]
    have hdiv : (carry ++ p).length / direction.size =
        (p.drop (direction.size - carry.length)).length / direction.size + 1 := by
      rw [← hdrop, List.length_drop]
      exact Nat.div_eq_sub_div (by omega) hlen
    rw [Nat.min_eq_left hl, if_pos hpend, hdiv]
    simp only [Stream.emitGroups, htake, hdrop]
  · have hlt : (carry ++ p).length < direction.size := by omega
    have hp : p.length < direction.size - carry.length := by simp at hlt; omega
    rw [Nat.min_eq_right (by omega), List.take_length, if_neg (by omega), Nat.div_eq_of_lt hlt]
    rfl

/-- A `write` on an open instance does its work and reports its length, or `REJECTED_WRITE_COUNT` and the error (R79). -/
theorem write_of_open (s : Stream) (p : List Byte) (ho : s.status = .opened) (hc : s.closed = false) :
    s.write p = ((s.absorb p).1,
      { count := if (s.absorb p).2.isSome then rejectedWriteCount p.length else p.length
        error := (s.absorb p).2 }) := by
  unfold Stream.write
  rw [ho, hc]
  rcases s.absorb p with ⟨t, _ | e⟩ <;> rfl

/-- A `write` or `close` on an instance in `Error(e)` reports `e`, and only `closed` may change (R80). -/
theorem call_of_error (s : Stream) (e : HostError) (h : s.status = .error e) (c : Call) :
    s.callError c = some e ∧ ∃ closed, s.call c = { s with closed := closed } := by
  cases c with
  | write p =>
    have hw : s.write p = (s, { count := rejectedWriteCount p.length, error := some e }) := by
      unfold Stream.write
      rw [h]
      cases s.closed <;> rfl
    exact ⟨by simp [Stream.callError, hw], s.closed, by simp [Stream.call, hw]⟩
  | close =>
    have hw : s.close = ({ s with closed := true }, some e) := by
      unfold Stream.close
      rw [h]
    exact ⟨by simp [Stream.callError, hw], true, by simp [Stream.call, hw]⟩

end Sys2Proof.Machine
end

