-- ==== Sys2Proof/Laws/Tables.lean ====
section
/-! SUPPORT. Facts about the two tables that every use of them needs: their sizes, and that an index read from the
Decode Table is a digit. -/

namespace Sys2Proof.Machine

theorem alphaCodes_length : alphaCodes.length = 85 := by decide +kernel

theorem dtabMarks_length : dtabMarks.length = 256 := by decide +kernel

theorem dtabMarks_are_digits : dtabMarks.all (fun m => m.all (fun n => decide (n.toNat < 85))) = true := by
  decide +kernel

/-- The index field of an entry is the number that stands in the table, 0 for a dot. -/
theorem didx_dtabEntry (m : Option (BitVec 7)) : (dtabEntry m).extractLsb' 0 7 = m.getD 0 := by
  cases m with
  | none => rfl
  | some n => revert n; decide

/-- The valid bit of an entry says that a number stands in the table. -/
theorem dval_dtabEntry (m : Option (BitVec 7)) : (dtabEntry m).getLsbD 7 = m.isSome := by
  cases m with
  | none => rfl
  | some n => revert n; decide

/-- Every index field of the Decode Table is a digit (R17: `DIDX` in [0, 85)). -/
theorem didx_lt (b : Byte) : (didx b).toNat < 85 := by
  have hb : b.toNat < dtabMarks.length := by rw [dtabMarks_length]; exact b.isLt
  rw [didx, dtab, didx_dtabEntry, List.getD_eq_getElem _ _ hb]
  have h := List.all_eq_true.mp dtabMarks_are_digits _ (List.getElem_mem hb)
  cases hm : dtabMarks[b.toNat] with
  | none => decide
  | some n => simpa [hm] using h

end Sys2Proof.Machine
end

