-- ==== Sys2Proof/Laws/Values.lean ====
section
/-! SUPPORT. The values behind the two operations as plain arithmetic, so that no later proof unfolds weights, digits or
lanes: the numbers 52200625, 614125, 7225 and 85 are the powers of R4. -/

namespace Sys2Proof.Machine

theorem encDigit_val (v : Nat) :
    (encDigit v 0).val = v / 52200625 % 85 ∧ (encDigit v 1).val = v / 614125 % 85 ∧
      (encDigit v 2).val = v / 7225 % 85 ∧ (encDigit v 3).val = v / 85 % 85 ∧ (encDigit v 4).val = v % 85 := by
  refine ⟨rfl, rfl, rfl, ?_, ?_⟩ <;> simp [encDigit, weight, Config.radix, Fin.ofNat]

theorem digitsValue_eq (d : Fin 5 → Nat) :
    digitsValue d = d 0 * 52200625 + d 1 * 614125 + d 2 * 7225 + d 3 * 85 + d 4 := by
  simp [digitsValue, weight, Config.radix]

theorem decValue_eq (c0 c1 c2 c3 c4 : Byte) :
    decValue c0 c1 c2 c3 c4 =
      (didx c0).toNat * 52200625 + (didx c1).toNat * 614125 + (didx c2).toNat * 7225 + (didx c3).toNat * 85 +
        (didx c4).toNat := by
  simp [decValue, digitsValue_eq, decDigit, operandByte]

theorem rawValue_lt (b0 b1 b2 b3 : Byte) : rawValue b0 b1 b2 b3 < 2 ^ 32 := by
  have := b0.isLt; have := b1.isLt; have := b2.isLt; have := b3.isLt
  unfold rawValue
  omega

theorem decData_toNat_of_lt (f : Nat → Word32) (v : Nat) (h : v < 2 ^ 32) : (decData f v).toNat = v := by
  rw [decData, if_pos h, BitVec.toNat_ofNat, Nat.mod_eq_of_lt h]

theorem decData_of_le (f : Nat → Word32) (v : Nat) (h : 2 ^ 32 ≤ v) : decData f v = f v := by
  rw [decData, if_neg (Nat.not_lt.mpr h)]

theorem packResult_toNat (w : Word32) : (packResult w).toNat = w.toNat := by
  have := w.isLt
  unfold packResult
  rw [append_toNat, append_toNat, append_toNat, append_toNat]
  simp [Nat.shiftRight_eq_div_pow]
  omega

/-- `0x00 ++ w` (R47), whether written as one concatenation or byte by byte. -/
theorem packResult_eq_append (w : Word32) : packResult w = 0x00#8 ++ w := by
  apply BitVec.eq_of_toNat_eq
  rw [packResult_toNat, append_toNat]
  simp

end Sys2Proof.Machine
end

