-- ==== Sys2Proof/Machine/Notation.lean ====
section
/-! DEFINITION. The line syntax of a transaction (R52), a notation of the spec's own for requests and responses (D22).
Nothing of the block depends on it. -/

namespace Sys2Proof.Machine

/-- One hexadecimal digit. -/
def hexDigit (n : Nat) : Char := "0123456789ABCDEF".toList.getD n '0'

/-- A byte in two hexadecimal digits (R52). -/
def hexByte (b : Byte) : List Char := [hexDigit (b.toNat / 16), hexDigit (b.toNat % 16)]

/-- A symbol as a character, a non-printable or non-ASCII byte as `\xNN` (R52). -/
def symbolText (b : Byte) : List Char :=
  if 0x20 ≤ b.toNat ∧ b.toNat ≤ 0x7E then [Char.ofNat b.toNat] else ['\\', 'x'] ++ hexByte b

/-- Symbols in double quotes. -/
def quoted (s : List Byte) : List Char := ['"'] ++ s.flatMap symbolText ++ ['"']

/-- Bytes in hexadecimal, separated by one space. -/
def hexBytes (s : List Byte) : List Char := [' '].intercalate (s.map hexByte)

/-- One bit as a character. -/
def bitChar (b : Bool) : Char := if b then '1' else '0'

/-- The flags, omitted when both are 0 (R52). -/
def flagsText (r : Response) : List Char :=
  if r.inv || r.ovf then " inv=".toList ++ [bitChar r.inv] ++ " ovf=".toList ++ [bitChar r.ovf] else []

/-- A transaction on one line (R52): the request on the left, its response on the right. The `pad` lane of an `ENC` request
has no place in the line. -/
def transactionLine (i : Instr) (r : Response) : List Char :=
  match i with
  | .enc _ b0 b1 b2 b3 => "ENC ".toList ++ hexBytes [b0, b1, b2, b3] ++ " -> ".toList ++ quoted r.symbols
  | .dec c0 c1 c2 c3 c4 =>
    "DEC ".toList ++ quoted [c0, c1, c2, c3, c4] ++ " -> ".toList ++ hexBytes r.bytes ++ flagsText r

end Sys2Proof.Machine
end

