-- ==== Sys2Proof/Tests/Slice0.lean ====
section
/-! SUPPORT. Tests. Expected values are the spec's: 95_test_vectors.md (section 1 the source's own vectors, sections 2 to
5 derived from the rules), 30_encoding.md R52 for written-out words. Then a witness for the hypotheses of every
statement that has some. -/

-- One thread for the file's many small closed facts: under the memory limit of the check a thread for each is refused.
set_option Elab.async false

namespace Sys2Proof.Tests

open Sys2Proof.Machine

/-! ## The checks of WellFormed refuse what they should -/

theorem test_wellFormed_every_operation :
    (Instr.enc 0xFF#8 1#8 2#8 3#8 4#8).wellFormed = true ∧ (Instr.dec 0#8 0#8 0#8 0#8 0xFF#8).wellFormed = true := by
  decide

theorem test_canonical_refuses_nonzero_pad :
    (Instr.enc 0xA5#8 0#8 0#8 0#8 0#8).canonical = false ∧ (Instr.enc 0#8 0#8 0#8 0#8 0#8).canonical = true := by decide

theorem test_isRequestWord_refuses_bit_41 : isRequestWord (2 ^ 41) = false ∧ isRequestWord (2 ^ 41 - 1) = true := by
  decide

theorem test_isDigit_refuses_85 : isDigit 85 = false ∧ isDigit 84 = true := by decide

theorem test_isRawChunk_refuses_three_bytes : isRawChunk [1#8, 2#8, 3#8] = false ∧ isRawChunk [1#8, 2#8, 3#8, 4#8] = true := by
  decide

theorem test_isEncodedChunk_refuses_four_symbols :
    isEncodedChunk [1#8, 2#8, 3#8, 4#8] = false ∧ isEncodedChunk [1#8, 2#8, 3#8, 4#8, 5#8] = true := by decide

/-! ## Decoding: words written out field by field from R40 and R41 -/

/-- `ENC 86 4F D2 6F`: op 0, pad 0, then the four bytes. -/
theorem test_decode_enc :
    decode 0b0_00000000_10000110_01001111_11010010_01101111#41 = .enc 0x00#8 0x86#8 0x4F#8 0xD2#8 0x6F#8 := by decide

/-- The same with a non-zero `pad` lane (95_test_vectors.md section 2, last paragraph). -/
theorem test_decode_enc_pad : decode 0x0AB864FD26F#41 = .enc 0xAB#8 0x86#8 0x4F#8 0xD2#8 0x6F#8 := by decide

/-- `DEC "Hello"`: op 1, then the five codes. -/
theorem test_decode_dec :
    decode 0b1_01001000_01100101_01101100_01101100_01101111#41 = .dec 0x48#8 0x65#8 0x6C#8 0x6C#8 0x6F#8 := by decide

theorem test_encode_dec : encode (.dec 0x48#8 0x65#8 0x6C#8 0x6C#8 0x6F#8) = 0x148656C6C6F#41 := by decide

theorem test_decodeRequest_refuses_bit_41 :
    decodeTableWord 48 0x20000000000 = none ∧ decodeTableWord 48 0x1FFFFFFFFFF ≠ none := by decide

/-! ## The operations -/

/-- The data and flags of the last response, as the vectors give them. -/
def lastResponse (o : Host.Outcome State Fault Refusal) : Option (Lanes × Bool × Bool) :=
  match o with
  | .next t => t.responses.getLast?.map (fun r => (r.dout, r.inv, r.ovf))
  | .fault _ => none
  | .refused _ => none

/-- S4, second group: `ENC B5 59 F7 5B -> "World"`, request `0x000B559F75B`. -/
theorem test_enc_world :
    lastResponse (step (State.reset.withFetchWord 41 0x000B559F75B)) = some (0x576F726C64#40, false, false) := by
  decide +kernel

/-- Section 2, the largest operand, with the non-zero pad of P6: `"%nSc0"`. -/
theorem test_enc_largest :
    lastResponse (step (State.reset.withFetchWord 41 0x0A5FFFFFFFF)) = some (0x256E536330#40, false, false) := by
  decide +kernel

/-- S5: `DEC "li###" -> 42 08 EE 1B`. -/
theorem test_dec_li :
    lastResponse (step (State.reset.withFetchWord 41 0x16C69232323)) = some (0x004208EE1B#40, false, false) := by
  decide +kernel

/-- Section 3.3: `"Hell\x80"`, a byte above 0x7F. -/
theorem test_dec_invalid_byte :
    lastResponse (step (State.reset.withFetchWord 41 0x148656C6C80)) = some (0x00864FD257#40, true, false) := by
  decide +kernel

/-- Section 3.2: the largest value, data for the default of `DEC_OVF`. -/
theorem test_dec_overflow_default :
    decResponseWith Config.decOvfDefault 0x23#8 0x23#8 0x23#8 0x23#8 0x23#8 =
      { dout := 0x0008780EC4#40, inv := false, ovf := true } := by decide +kernel

/-- P6, transaction 4: the whole response word. -/
theorem test_response_word : (z85ct 0x148656C6C80#41).word = 0x100864FD257#42 := by decide +kernel

/-- R52's own example, and P6's transaction 4 with an escaped byte and a flag. -/
theorem test_transaction_lines :
    transactionLine (decode 0x000864FD26F#41) (z85ct 0x000864FD26F#41) = "ENC 86 4F D2 6F -> \"Hello\"".toList ∧
      transactionLine (decode 0x148656C6C80#41) (z85ct 0x148656C6C80#41) =
        "DEC \"Hell\\x80\" -> 86 4F D2 57 inv=1 ovf=0".toList := by decide +kernel

/-! ## The host procedures -/

/-- S7: the 13 bytes of "Hello world!!". -/
def hello13 : List Byte :=
  [0x48#8, 0x65#8, 0x6C#8, 0x6C#8, 0x6F#8, 0x20#8, 0x77#8, 0x6F#8, 0x72#8, 0x6C#8, 0x64#8, 0x21#8, 0x21#8]

/-- S7: "nm=QNzY<mxA+]nfaP". -/
def hello17 : List Byte :=
  "nm=QNzY<mxA+]nfaP".toList.map (fun c => BitVec.ofNat 8 c.toNat)

theorem test_encode_S7 : encodeBytes hello13 = hello17 := by decide +kernel

theorem test_decode_S7 : decodeText hello17 = hello13 := by decide +kernel

/-- A sink that never fails and has received nothing. -/
def goodSink : Sink := { received := [], answers := [] }

/-- P3: the 13 bytes in pieces of 1, 5, 0 and 7. -/
theorem test_stream_P3 :
    ((Stream.create .encoder false goodSink).run [hello13.take 1, slice hello13 1 6, [], hello13.drop 6]).sink.content =
      hello17 := by decide +kernel

/-- P4: the 17 symbols in pieces of 3, 11 and 3; puts of 4, 4, 4 and 1 bytes. -/
theorem test_stream_P4 :
    ((Stream.create .decoder false goodSink).run [hello17.take 3, slice hello17 3 14, hello17.drop 14]).sink.received =
      [slice hello13 0 4, slice hello13 4 8, slice hello13 8 12, slice hello13 12 13] := by decide +kernel

/-- Section 4.4 (d): the sink fails on the second `put`; the sink keeps the first group. -/
theorem test_stream_sink_failure :
    let s := (Stream.create .encoder false { received := [], answers := [.ok, .fail 7 0] }).writes
      [hello13.take 5, hello13.drop 5]
    s.sink.content = slice hello17 0 5 ∧ s.status = .error (.sink 7) := by decide +kernel

/-! ## Witnesses: a state and operands that meet the hypotheses of each statement that has some -/

/-- A state with one request of each kind pending. -/
def twoPending : State := presentAll [0x000864FD26F#41, 0x12323232323#41] State.reset

theorem witness_words_of_both_kinds :
    (0x0FFFFFFFFFF#41 : ReqWord).getLsbD 40 = false ∧ (0x10000000000#41 : ReqWord).getLsbD 40 = true := by decide

theorem witness_enc_operand : decode 0x0AB00000001#41 = .enc 0xAB#8 0#8 0#8 0#8 1#8 := by decide

theorem witness_enc_digits :
    let v := (0xFF#8 : Byte).toNat * 2 ^ 24 + (0xFF#8 : Byte).toNat * 2 ^ 16 + (0xFF#8 : Byte).toNat * 2 ^ 8 +
      (0xFF#8 : Byte).toNat
    v = 82 * 52200625 + 23 * 614125 + 54 * 7225 + 12 * 85 + 0 := by decide

theorem witness_index_order : (List.finRange 85).reverse.Perm (List.finRange 85) := List.reverse_perm _

theorem witness_same_indices : didx 0x20#8 = didx 0x30#8 ∧ dval 0x20#8 ≠ dval 0x30#8 := by decide +kernel

theorem witness_enc_range_82 :
    (encDigit 4280451250 0).val = 82 ∧ (encDigit 4294967295 0).val = 82 ∧ (4294967295 : Nat) ≤ 4294967295 := by
  decide +kernel

theorem witness_enc_order : (4294967294 : Nat) < 4294967295 ∧ (4294967295 : Nat) < 2 ^ 32 := by decide

theorem witness_enc_same_data :
    (z85ct (encode (.enc 0x00#8 1#8 2#8 3#8 4#8))).dout = (z85ct (encode (.enc 0xFF#8 1#8 2#8 3#8 4#8))).dout := by
  decide +kernel

theorem witness_exec_next :
    (∃ t, exec (.dec 0x20#8 0x30#8 0x30#8 0x30#8 0x30#8) State.reset = .next t) ∧
      ∃ t, exec (.enc 0#8 0#8 0#8 0#8 0#8) State.reset = .next t :=
  ⟨⟨_, rfl⟩, ⟨_, rfl⟩⟩

theorem witness_non_symbol : dval 0x20#8 = false ∧ dval 0xFF#8 = false ∧ dval 0x30#8 = true := by decide +kernel

theorem witness_overflow : 2 ^ 32 ≤ decValue 0x25#8 0x6E#8 0x53#8 0x63#8 0x31#8 := by decide +kernel

theorem witness_first_symbols :
    (didx 0x40#8).toNat = 81 ∧ (didx 0x25#8).toNat = 82 ∧ (didx 0x24#8).toNat = 83 ∧ (didx 0x23#8).toNat = 84 := by
  decide +kernel

theorem witness_flags :
    invFlag 0x20#8 0x30#8 0x30#8 0x30#8 0x30#8 = true ∧ ovfFlag (2 ^ 32) = true ∧ ovfFlag (2 ^ 32 - 1) = false := by
  decide +kernel

theorem witness_monotone :
    (∀ i, dval ((fun i => alpha ⟨i.val, by omega⟩ : Fin 5 → Byte) i) = true) ∧ 1 ≤ 1 ∧ 4 ≤ 4 := by decide +kernel

theorem witness_pending :
    twoPending.pending = 0x000864FD26F#41 :: [0x12323232323#41] ∧ State.reset.pending = [] := by decide

theorem witness_equal_next_requests :
    (present 5#41 State.reset).pending = 5#41 :: [] ∧
      (presentAll [5#41, 6#41] (idle State.reset)).pending = 5#41 :: [6#41] := by decide

theorem witness_paired : Paired State.reset ∧ ∃ t, step State.reset = .next t :=
  ⟨⟨rfl, fun _ h => nomatch h⟩, ⟨_, rfl⟩⟩

theorem witness_paired_with_history :
    Paired { pending := [7#41], answered := [5#41], responses := [z85ct 5#41], onOutputs := some (z85ct 5#41),
             idleIndex := 0 } :=
  ⟨rfl, fun _ h => h⟩

theorem witness_permuted : [1#41, 2#41, 2#41].Perm [2#41, 1#41, (2#41 : ReqWord)] := by decide

theorem witness_partial_groups :
    (1 ≤ [1#8].length ∧ [1#8, 2#8, (3#8 : Byte)].length ≤ 3) ∧ [1#8, 2#8, 3#8, (4#8 : Byte)].length ≤ 4 := by decide

theorem witness_whole_groups : ([] : List Byte).length % 5 = 0 ∧ [1#8, 2#8, 3#8, 4#8, (5#8 : Byte)].length % 5 = 0 := by
  decide

/-- A strict host accepts "Hello" and rejects "He lo" (P5). -/
theorem witness_strict :
    decodeTextWith true [0x48#8, 0x65#8, 0x6C#8, 0x6C#8, 0x6F#8] = .ok [0x86#8, 0x4F#8, 0xD2#8, 0x6F#8] ∧
      decodeTextWith true [0x48#8, 0x65#8, 0x20#8, 0x6C#8, 0x6F#8] = .error .invalidSymbol :=
  ⟨rfl, rfl⟩

theorem witness_put :
    goodSink.put [1#8, 2#8] = ({ received := [[1#8, 2#8]], answers := [] }, none) ∧
      (Sink.put { received := [], answers := [.fail 9 5] } [1#8, 2#8]) =
        ({ received := [[1#8]], answers := [] }, some (.sink 9)) := by decide

/-- A new encoder on a sink that never fails. -/
def openEncoder : Stream := Stream.create .encoder false goodSink

/-- An encoder in `Error`, with three carried bytes. -/
def failedEncoder : Stream := { openEncoder with status := .error (.sink 3), carry := [1#8, 2#8, 3#8] }

theorem witness_carry_fits : CarryFits failedEncoder ∧ CarryFits openEncoder := by
  unfold CarryFits; decide

theorem witness_write_reports :
    (openEncoder.write [1#8]).2.error = none ∧ (failedEncoder.write [1#8]).2.error ≠ none := by decide

theorem witness_short_write :
    let s := { openEncoder with carry := [1#8, 2#8] }
    s.status = .opened ∧ s.closed = false ∧ s.carry.length + [3#8].length < s.direction.size ∧
      s.carry.length + ([] : List Byte).length < s.direction.size := by decide

theorem witness_sink_failure :
    (Stream.create .encoder false { received := [], answers := [.fail 7 0] }).callError (.write (hello13.take 4)) =
      some (.sink 7) := by decide +kernel

/-- An open encoder with one carried byte, whose sink fails next. -/
def failingEncoder : Stream := { Stream.create .encoder false { received := [], answers := [.fail 7 2] } with carry := [1#8] }

/-- The hypotheses of the clauses of the sticky error about a `put` that fails: a `write` that just completes the group, a
`close` with one carried byte, and the answer stands among those of the puts made. -/
theorem witness_failing_put :
    failingEncoder.status = .opened ∧ failingEncoder.closed = false ∧ CarryFits failingEncoder ∧
      failingEncoder.sink.answers = [.fail 7 2] ∧
      failingEncoder.direction.size = (failingEncoder.carry ++ [2#8, 3#8, 4#8]).length ∧
      failingEncoder.carry ≠ [] ∧ 0 < failingEncoder.direction.keep failingEncoder.carry.length ∧
      (failingEncoder.call (.write [2#8, 3#8, 4#8])).sink.received.length = 1 ∧
      (failingEncoder.call .close).sink.received.length = 1 ∧
      ∀ r, failingEncoder.direction.rejects failingEncoder.strict r = false := by
  unfold CarryFits
  exact ⟨rfl, rfl, by decide, rfl, rfl, by decide, by decide, by decide +kernel, by decide +kernel, fun _ => rfl⟩

theorem witness_sticky : failedEncoder.status = .error (.sink 3) := by decide

/-- A strict decoder that carries "H", on a sink whose first answer is `ok` and whose second is a failure. -/
def strictDecoder : Stream :=
  { Stream.create .decoder true { received := [], answers := [.ok, .fail 7 0] } with carry := [0x48#8] }

/-- The hypotheses about a `write`: "elloHe lo" after "H" has group 0 unflagged and group 1 flagged, and ends with it. -/
theorem witness_strict_write :
    strictDecoder.direction = .decoder ∧ strictDecoder.strict = true ∧ strictDecoder.status = .opened ∧
      strictDecoder.closed = false ∧ CarryFits strictDecoder ∧
      let text := strictDecoder.carry ++ [0x65#8, 0x6C#8, 0x6C#8, 0x6F#8, 0x48#8, 0x65#8, 0x20#8, 0x6C#8, 0x6F#8]
      5 * 1 + 5 ≤ text.length ∧ flagged (z85ct (decRequest (slice text 0 5))) = false ∧
      flagged (z85ct (decRequest (slice text 5 10))) = true ∧ (∀ a ∈ strictDecoder.sink.answers.take 1, a = .ok) := by
  unfold CarryFits
  exact ⟨rfl, rfl, rfl, rfl, by decide, by decide, by decide +kernel, by decide +kernel, by decide⟩

/-- The hypotheses about a `close`: "H " is flagged when padded, "He" is not. -/
theorem witness_strict_close :
    flagged (z85ct (decRequest ([0x48#8, 0x20#8] ++ List.replicate (5 - 2) padSymbol))) = true ∧
      flagged (z85ct (decRequest ([0x48#8, 0x65#8] ++ List.replicate (5 - 2) padSymbol))) = false := by
  decide +kernel

theorem witness_closed :
    openEncoder.close.1.closed = true ∧ openEncoder.close.1.status = .opened ∧
      failedEncoder.close.1.closed = true ∧ failedEncoder.close.1.status = .error (.sink 3) := by decide

theorem witness_never_fails : NeverFails goodSink ∧ NeverFails { received := [], answers := [.ok, .ok] } := by
  constructor
  · intro a h; exact nomatch h
  · intro a h; simpa using h

/-- The hypotheses of the streaming round trip together: two good sinks, and the text of one run in other pieces. -/
theorem witness_round_trip :
    NeverFails goodSink ∧ goodSink.received = [] ∧
      [hello17.take 3, slice hello17 3 14, hello17.drop 14].flatten =
        ((Stream.create .encoder false goodSink).run [hello13.take 1, hello13.drop 1]).sink.content :=
  ⟨witness_never_fails.1, rfl, by decide +kernel⟩

theorem witness_unfailed_run :
    ((Stream.create .decoder false { received := [], answers := [.ok] }).run [hello17.take 5]).status = .opened ∧
      ((Stream.create .encoder false { received := [], answers := [.ok] }).run [hello13.take 4]).status = .opened := by
  decide +kernel

end Sys2Proof.Tests
end

section
/-! SUPPORT. The block's function on the request of an instruction: decoding undoes encoding, so a response can be
computed from the operands; and `exec` read backwards, from the next state to the response delivered. -/

namespace Sys2Proof

/-- R40, R41: the request word of an instruction stands for that instruction. -/
@[simp] theorem decode_encode (i : Instr) : decode (encode i) = i := by
  cases i <;>
    simp [decode, encode, reqOp_requestWord, reqDin_requestWord, lane_packLanes_0, lane_packLanes_1, lane_packLanes_2,
      lane_packLanes_3, lane_packLanes_4]

end Sys2Proof

namespace Sys2Proof.Machine

@[simp] theorem z85ct_encode (i : Instr) : z85ct (encode i) = respond i := by
  rw [z85ct, decode_encode]

@[simp] theorem respond_enc (pad b0 b1 b2 b3 : Byte) :
    respond (.enc pad b0 b1 b2 b3) = encResponse pad b0 b1 b2 b3 := rfl

@[simp] theorem respond_dec (c0 c1 c2 c3 c4 : Byte) : respond (.dec c0 c1 c2 c3 c4) = decResponse c0 c1 c2 c3 c4 := rfl

/-- The only next state an operation has. -/
theorem eq_deliver_of_exec_next {i : Instr} {s t : State} (h : exec i s = .next t) : t = deliver (respond i) s := by
  rw [exec_eq_deliver] at h
  exact (Host.Outcome.next.inj h).symm

end Sys2Proof.Machine
end

section
/-! SUPPORT. The fields of the two responses, and those of a `DEC` response for an operand given by position. -/

namespace Sys2Proof.Machine

@[simp] theorem encResponse_inv (pad b0 b1 b2 b3 : Byte) : (encResponse pad b0 b1 b2 b3).inv = false := rfl

@[simp] theorem encResponse_ovf (pad b0 b1 b2 b3 : Byte) : (encResponse pad b0 b1 b2 b3).ovf = false := rfl

@[simp] theorem decResponse_dout (c0 c1 c2 c3 c4 : Byte) :
    (decResponse c0 c1 c2 c3 c4).dout = packResult (decData Config.decOvf (decValue c0 c1 c2 c3 c4)) := rfl

@[simp] theorem decResponse_inv (c0 c1 c2 c3 c4 : Byte) :
    (decResponse c0 c1 c2 c3 c4).inv = invFlag c0 c1 c2 c3 c4 := rfl

@[simp] theorem decResponse_ovf (c0 c1 c2 c3 c4 : Byte) :
    (decResponse c0 c1 c2 c3 c4).ovf = ovfFlag (decValue c0 c1 c2 c3 c4) := rfl

/-- R14: one non-symbol anywhere raises `inv`. -/
theorem invFlag_eq_true_iff (c : Fin 5 → Byte) :
    invFlag (c 0) (c 1) (c 2) (c 3) (c 4) = true ↔ ∃ i, dval (c i) = false := by
  simp [invFlag, Fin.exists_fin_succ, or_assoc]

@[simp] theorem ovfFlag_eq_true_iff (v : Nat) : ovfFlag v = true ↔ 2 ^ 32 ≤ v := decide_eq_true_iff

theorem decValue_eq_digitsValue (c : Fin 5 → Byte) :
    decValue (c 0) (c 1) (c 2) (c 3) (c 4) = digitsValue (fun i => (didx (c i)).toNat) := by
  rw [decValue_eq, digitsValue_eq]

/-- R61's reason: of the Decode Table's entries only the index fields enter the value, never the valid bits. -/
theorem decValue_congr {c c' : Fin 5 → Byte} (h : ∀ i, didx (c i) = didx (c' i)) :
    decValue (c 0) (c 1) (c 2) (c 3) (c 4) = decValue (c' 0) (c' 1) (c' 2) (c' 3) (c' 4) := by
  simp only [decValue_eq_digitsValue, h]

end Sys2Proof.Machine
end

section
/-! The status outputs (10_state.md, R14 and R15). -/

namespace Sys2Proof.Machine

/-- Settles O21: the response delivered is `respond` of the instruction, whose fields are functions of the operand bytes;
the data reads only the decoded value, and the value only the index fields. -/
theorem flagsAreComputedFromTheRequest : Obligations.FlagsAreComputedFromTheRequest := by
  refine ⟨fun c s t h => ?_, fun c c' h => ?_, fun pad b0 b1 b2 b3 s t h => ?_⟩
  · obtain rfl := eq_deliver_of_exec_next h
    refine ⟨decResponse (c 0) (c 1) (c 2) (c 3) (c 4), rfl, rfl, ?_, ?_⟩
    · rw [decResponse_inv, invFlag_eq_true_iff]
    · rw [decResponse_ovf, ovfFlag_eq_true_iff, decValue_eq_digitsValue]
  · rw [z85ct_encode, z85ct_encode, respond_dec, respond_dec, decResponse_dout, decResponse_dout, decValue_congr h]
  · obtain rfl := eq_deliver_of_exec_next h
    exact ⟨encResponse pad b0 b1 b2 b3, rfl, rfl, encResponse_inv .., encResponse_ovf ..⟩

end Sys2Proof.Machine
end

section
/-! SUPPORT. The two tables as inverses of each other: the Decode Table read at a symbol gives the symbol's index, the
bytes it marks valid are the symbols, and a byte it marks invalid has index 0. -/

namespace Sys2Proof.Machine

theorem didx_eq_mark (b : Byte) : didx b = (dtabMarks.getD b.toNat none).getD 0 := didx_dtabEntry _

theorem dval_eq_mark_isSome (b : Byte) : dval b = (dtabMarks.getD b.toNat none).isSome := dval_dtabEntry _

/-- R27, reading the Alphabet first. -/
@[simp] theorem didx_alpha (i : Fin 85) : (didx (alpha i)).toNat = i.val := by
  revert i; decide +kernel

@[simp] theorem dval_alpha (i : Fin 85) : dval (alpha i) = true := by
  revert i; decide +kernel

/-- R27, reading the Decode Table first. -/
theorem alpha_didx {b : Byte} (h : dval b = true) : alpha ⟨(didx b).toNat, didx_lt b⟩ = b := by
  revert b; decide +kernel

/-- A dot is an entry with both fields zero. -/
theorem didx_eq_zero_of_not_dval {b : Byte} (h : dval b = false) : didx b = 0#7 := by
  rw [dval_eq_mark_isSome, Option.isSome_eq_false_iff, Option.isNone_iff_eq_none] at h
  rw [didx_eq_mark, h]
  rfl

/-- The bytes marked valid are the symbols of the Alphabet. -/
theorem dval_eq_true_iff (b : Byte) : dval b = true ↔ ∃ i, alpha i = b := by
  constructor
  · exact fun h => ⟨_, alpha_didx h⟩
  · rintro ⟨i, rfl⟩
    exact dval_alpha i

theorem dval_eq_false_iff (b : Byte) : dval b = false ↔ ∀ i, alpha i ≠ b := by
  rw [← Bool.not_eq_true, dval_eq_true_iff, not_exists]

/-- No symbol stands twice in the Alphabet, since the Decode Table gives each its one index back. -/
theorem alpha_injective : Function.Injective alpha := fun i j h => by
  have hidx : (didx (alpha i)).toNat = (didx (alpha j)).toNat := by rw [h]
  rw [didx_alpha, didx_alpha] at hidx
  exact Fin.ext hidx

theorem count_dval : ((List.range 256).filter (fun n => dval (BitVec.ofNat 8 n))).length = 85 := by
  decide +kernel

/-- The dots are the bytes left over from all 256 by the symbols. -/
theorem count_not_dval : ((List.range 256).filter (fun n => !dval (BitVec.ofNat 8 n))).length = 171 := by
  have hsum := List.length_eq_length_filter_add (l := List.range 256) (fun n => dval (BitVec.ofNat 8 n))
  rw [count_dval, List.length_range] at hsum
  omega

end Sys2Proof.Machine
end

section
/-! SUPPORT. The codes of the Alphabet, read off the table of R26. -/

namespace Sys2Proof.Machine

theorem map_alpha_eq_alphaCodes : (List.finRange 85).map alpha = alphaCodes := by decide +kernel

theorem alpha_range (i : Fin 85) : 0x21 ≤ (alpha i).toNat ∧ (alpha i).toNat ≤ 0x7D := by
  revert i; decide +kernel

theorem alpha_digits (i : Fin 85) (h : i.val ≤ 9) : (alpha i).toNat = 0x30 + i.val := by
  revert i; decide +kernel

theorem alpha_lowerCase (i : Fin 85) (h : 10 ≤ i.val) (h' : i.val ≤ 35) : (alpha i).toNat = 0x61 + (i.val - 10) := by
  revert i; decide +kernel

theorem alpha_upperCase (i : Fin 85) (h : 36 ≤ i.val) (h' : i.val ≤ 61) : (alpha i).toNat = 0x41 + (i.val - 36) := by
  revert i; decide +kernel

end Sys2Proof.Machine
end

section
/-! The contents of the two ROMs (20_memory.md, R26 and R27). -/

namespace Sys2Proof.Machine

/-- Settles O8: the codes are compared with the document's string as literals; that none occurs twice follows from the
Decode Table giving each code's index back. -/
theorem alphabetIsTheDocumentsString : Obligations.AlphabetIsTheDocumentsString := by
  refine ⟨?_, fun i j h => alpha_injective h, alpha_range, fun i => ⟨alpha_digits i, alpha_lowerCase i, alpha_upperCase i⟩⟩
  rw [map_alpha_eq_alphaCodes]
  decide +kernel

/-- Settles O9: a byte that is no symbol is not marked valid, so its entry is a dot. -/
theorem decodeTableInvertsTheAlphabet : Obligations.DecodeTableInvertsTheAlphabet := by
  refine ⟨fun i => ⟨didx_alpha i, dval_alpha i⟩, fun b h => ?_, count_dval, count_not_dval⟩
  have hdot : dval b = false := (dval_eq_false_iff b).mpr h
  exact ⟨didx_eq_zero_of_not_dval hdot, hdot⟩

end Sys2Proof.Machine
end

section
/-! SUPPORT. The fields of a request word cover it: `op` and `din` give the word back, the five lanes give `din` back,
and so encoding undoes decoding. -/

namespace Sys2Proof

/-- R40: `op * 2^40 + din`. -/
theorem requestWord_toNat (op : Bool) (d : Lanes) : (requestWord op d).toNat = op.toNat * 2 ^ 40 + d.toNat := by
  rw [requestWord, append_toNat, BitVec.toNat_ofBool]

@[simp] theorem requestWord_reqOp_reqDin (w : ReqWord) : requestWord (reqOp w) (reqDin w) = w := by
  have hop : BitVec.ofBool (reqOp w) = w.extractLsb' 40 1 := by
    ext i hi
    obtain rfl : i = 0 := by omega
    simp [reqOp]
  rw [requestWord, hop, reqDin,
    BitVec.extractLsb'_append_extractLsb'_eq_extractLsb' (start₂ := 40) (start₁ := 0) rfl]
  exact BitVec.extractLsb'_eq_self

theorem lane_toNat (d : Lanes) (i : Fin 5) : (lane d i).toNat = d.toNat / 2 ^ (32 - 8 * i.val) % 2 ^ 8 := by
  rw [lane, BitVec.extractLsb'_toNat, Nat.shiftRight_eq_div_pow]

@[simp] theorem packLanes_lane (d : Lanes) : packLanes (lane d 0) (lane d 1) (lane d 2) (lane d 3) (lane d 4) = d := by
  have hd : d.toNat < 2 ^ 40 := d.isLt
  apply BitVec.eq_of_toNat_eq
  rw [packLanes_toNat, lane_toNat, lane_toNat, lane_toNat, lane_toNat, lane_toNat]
  simp only [Fin.coe_ofNat_eq_mod, Nat.reduceMod, Nat.reduceMul, Nat.reduceSub]
  omega

/-- The value of five lanes read from `din` is `din` (R40). -/
theorem toNat_eq_lanes (d : Lanes) :
    d.toNat = (lane d 0).toNat * 2 ^ 32 + (lane d 1).toNat * 2 ^ 24 + (lane d 2).toNat * 2 ^ 16 +
      (lane d 3).toNat * 2 ^ 8 + (lane d 4).toNat := by
  rw [← packLanes_toNat, packLanes_lane]

/-- R41: lane `i` of a request is bits `39-8i` to `32-8i` of the whole word. -/
theorem lane_reqDin (w : ReqWord) (i : Fin 5) :
    lane (reqDin w) i = BitVec.ofNat 8 (w.toNat / 2 ^ (32 - 8 * i.val) % 256) := by
  apply BitVec.eq_of_toNat_eq
  rw [lane, reqDin, BitVec.extractLsb'_extractLsb'_of_le (by omega), BitVec.extractLsb'_toNat,
    Nat.shiftRight_eq_div_pow, BitVec.toNat_ofNat, Nat.mod_mod]

end Sys2Proof
end

section
/-! SUPPORT. The decoder by cases of bit 40 (R48), and its inverse. -/

namespace Sys2Proof

theorem decode_of_reqOp_false {w : ReqWord} (h : reqOp w = false) :
    decode w =
      .enc (lane (reqDin w) 0) (lane (reqDin w) 1) (lane (reqDin w) 2) (lane (reqDin w) 3) (lane (reqDin w) 4) := by
  simp [decode, h]

theorem decode_of_reqOp_true {w : ReqWord} (h : reqOp w = true) :
    decode w =
      .dec (lane (reqDin w) 0) (lane (reqDin w) 1) (lane (reqDin w) 2) (lane (reqDin w) 3) (lane (reqDin w) 4) := by
  simp [decode, h]

theorem decode_is_enc_iff (w : ReqWord) :
    reqOp w = false ↔ ∃ pad b0 b1 b2 b3, decode w = .enc pad b0 b1 b2 b3 := by
  cases h : reqOp w with
  | false => simp [decode_of_reqOp_false h]
  | true => simp [decode_of_reqOp_true h]

theorem decode_is_dec_iff (w : ReqWord) :
    reqOp w = true ↔ ∃ c0 c1 c2 c3 c4, decode w = .dec c0 c1 c2 c3 c4 := by
  cases h : reqOp w with
  | false => simp [decode_of_reqOp_false h]
  | true => simp [decode_of_reqOp_true h]

/-- R49: no word has two meanings. -/
@[simp] theorem encode_decode (w : ReqWord) : encode (decode w) = w := by
  cases h : reqOp w with
  | false => rw [decode_of_reqOp_false h, encode, packLanes_lane, ← h, requestWord_reqOp_reqDin]
  | true => rw [decode_of_reqOp_true h, encode, packLanes_lane, ← h, requestWord_reqOp_reqDin]

/-- The mask of the opcode map keeps bit 40 alone (R48). -/
theorem and_opMask (w : ReqWord) : w &&& 0x10000000000#41 = if reqOp w then 0x10000000000#41 else 0#41 :=
  BitVec.and_twoPow w 40

theorem and_opMask_eq_enc_iff (w : ReqWord) : w &&& 0x10000000000#41 = 0x00000000000#41 ↔ reqOp w = false := by
  rw [and_opMask]
  cases reqOp w <;> decide

theorem and_opMask_eq_dec_iff (w : ReqWord) : w &&& 0x10000000000#41 = 0x10000000000#41 ↔ reqOp w = true := by
  rw [and_opMask]
  cases reqOp w <;> decide

end Sys2Proof
end

section
/-! SUPPORT. The operand of `ENC` as a part of the request's number, the pad lane's absence from the `ENC` response, and
the result lanes of `DEC`. -/

namespace Sys2Proof.Machine

theorem encode_enc_toNat (pad b0 b1 b2 b3 : Byte) :
    (encode (.enc pad b0 b1 b2 b3)).toNat = pad.toNat * 2 ^ 32 + rawValue b0 b1 b2 b3 := by
  rw [encode, requestWord_toNat, packLanes_toNat, rawValue, Bool.toNat_false]
  omega

/-- R50: lane 0 has no part in the response. -/
theorem encResponse_pad_irrelevant (pad pad' b0 b1 b2 b3 : Byte) :
    encResponse pad b0 b1 b2 b3 = encResponse pad' b0 b1 b2 b3 := rfl

/-- R50: a canonical `ENC` request has 0 in lane 0. -/
theorem canonical_enc_iff (pad b0 b1 b2 b3 : Byte) : (Instr.enc pad b0 b1 b2 b3).canonical = true ↔ pad = 0x00#8 :=
  beq_iff_eq

theorem packResult_eq_packLanes (w : Word32) :
    packResult w = packLanes 0x00#8 (w.extractLsb' 24 8) (w.extractLsb' 16 8) (w.extractLsb' 8 8) (w.extractLsb' 0 8) :=
  rfl

theorem lane_packResult_0 (w : Word32) : lane (packResult w) 0 = 0x00#8 := by
  rw [packResult_eq_packLanes, lane_packLanes_0]

/-- R47: the bytes read from a response whose data is `0x00 ++ w`. -/
theorem bytes_of_dout_eq_packResult {r : Response} {w : Word32} (h : r.dout = packResult w) :
    r.bytes = [w.extractLsb' 24 8, w.extractLsb' 16 8, w.extractLsb' 8 8, w.extractLsb' 0 8] := by
  rw [Response.bytes, h, packResult_eq_packLanes, lane_packLanes_1, lane_packLanes_2, lane_packLanes_3,
    lane_packLanes_4]

/-- R46: the request with `op` 1 and these lanes is that of `DEC` on them. -/
theorem z85ct_requestWord_true (c0 c1 c2 c3 c4 : Byte) :
    z85ct (requestWord true (c0 ++ c1 ++ c2 ++ c3 ++ c4)) = decResponse c0 c1 c2 c3 c4 :=
  z85ct_encode (.dec c0 c1 c2 c3 c4)

end Sys2Proof.Machine
end

section
/-! The request word, its opcode map and its operands (30_encoding.md, R40 to R50). -/

namespace Sys2Proof.Machine

/-- Settles O20: the `w` of R60 is the data that `packResult` lays out, so its lanes are those of `packLanes`. -/
theorem decResultLanesAreTheBytesOfTheValue : Obligations.DecResultLanesAreTheBytesOfTheValue := by
  intro c0 c1 c2 c3 c4
  have hdout := decResponse_dout c0 c1 c2 c3 c4
  refine ⟨decData Config.decOvf (decValue c0 c1 c2 c3 c4), decData_toNat_of_lt _ _, decData_of_le _ _, ?_⟩
  rw [z85ct_requestWord_true]
  refine ⟨?_, ?_, bytes_of_dout_eq_packResult hdout⟩
  · rw [hdout, packResult_toNat]
  · rw [hdout, lane_packResult_0]

/-- Settles O1: the word is the request word of its own two fields, and `din` is its own five lanes packed. -/
theorem requestWordIsOpAndFiveLanes : Obligations.RequestWordIsOpAndFiveLanes := by
  intro w
  refine ⟨?_, toNat_eq_lanes _, decode_is_enc_iff w, decode_is_dec_iff w⟩
  rw [← requestWord_toNat, requestWord_reqOp_reqDin]

/-- Settles O2: bit 40 selects the operation, and each of its operands is a lane read from the word's number. -/
theorem operandsStandInTheLanes : Obligations.OperandsStandInTheLanes := by
  intro w l
  have hlane (i : Fin 5) : lane (reqDin w) i = l i.val := lane_reqDin w i
  constructor
  · intro h
    rw [decode_of_reqOp_false h]
    simp only [hlane]
    rfl
  · intro h
    rw [decode_of_reqOp_true h]
    simp only [hlane]
    rfl

/-- Settles O6: under the mask a word is one of the two `match` values, according to bit 40. -/
theorem opcodeMapHasTwoRowsAndNoHoles : Obligations.OpcodeMapHasTwoRowsAndNoHoles := by
  intro w
  rw [and_opMask_eq_enc_iff, and_opMask_eq_dec_iff]
  exact ⟨decode_is_enc_iff w, decode_is_dec_iff w, (reqOp w).eq_false_or_eq_true.symm⟩

/-- Settles O12: a word that decodes to `ENC` is that instruction's request word, in which the pad lane is a multiple of
2^32 and the operand is below it. -/
theorem encOperandIsTheLow32Bits : Obligations.EncOperandIsTheLow32Bits := by
  intro w pad b0 b1 b2 b3 h
  refine ⟨?_, rfl⟩
  rw [← encode_decode w, h, encode_enc_toNat, Nat.mul_add_mod_self_right, Nat.mod_eq_of_lt (rawValue_lt ..)]

/-- Settles O18: the two requests have the same response, and delivering it is all that either does. -/
theorem encIgnoresThePadLane : Obligations.EncIgnoresThePadLane := by
  intro pad pad' b0 b1 b2 b3 s
  refine ⟨?_, canonical_enc_iff pad b0 b1 b2 b3⟩
  rw [exec_eq_deliver, exec_eq_deliver, respond_enc, respond_enc, encResponse_pad_irrelevant pad pad']

end Sys2Proof.Machine
end

section
/-! SUPPORT. The five base-85 digits of a value (R55): they give the value back, no other five do, and the first of a
32-bit value stops short of the Alphabet's last two symbols. -/

namespace Sys2Proof.Machine

/-- 85^5 exceeds every 32-bit value, so five digits hold it. -/
theorem digitsValue_encDigit {v : Nat} (h : v < 2 ^ 32) : digitsValue (fun i => (encDigit v i).val) = v := by
  obtain ⟨h0, h1, h2, h3, h4⟩ := encDigit_val v
  rw [digitsValue_eq, h0, h1, h2, h3, h4]
  omega

theorem encDigit_digitsValue (e : Fin 5 → Fin 85) (i : Fin 5) : encDigit (digitsValue (fun j => (e j).val)) i = e i := by
  obtain ⟨h0, h1, h2, h3, h4⟩ := encDigit_val (digitsValue (fun j => (e j).val))
  rw [digitsValue_eq] at h0 h1 h2 h3 h4
  apply Fin.ext
  match i with
  | 0 => rw [digitsValue_eq, h0]; omega
  | 1 => rw [digitsValue_eq, h1]; omega
  | 2 => rw [digitsValue_eq, h2]; omega
  | 3 => rw [digitsValue_eq, h3]; omega
  | 4 => rw [digitsValue_eq, h4]; omega

/-- R57: the first digit of a 32-bit value. -/
theorem encDigit_zero_le {v : Nat} (h : v < 2 ^ 32) : (encDigit v 0).val ≤ 82 := by
  rw [(encDigit_val v).1]
  omega

/-- The symbols `$` and `#` are `ALPHA[83]` and `ALPHA[84]` (R26). -/
theorem alpha_ne_dollar_and_ne_hash {i : Fin 85} (h : i.val ≤ 82) : alpha i ≠ 0x24#8 ∧ alpha i ≠ 0x23#8 := by
  revert i; decide +kernel

theorem encResponse_dout (pad b0 b1 b2 b3 : Byte) :
    (encResponse pad b0 b1 b2 b3).dout =
      packLanes (encSymbol (rawValue b0 b1 b2 b3) 0) (encSymbol (rawValue b0 b1 b2 b3) 1)
        (encSymbol (rawValue b0 b1 b2 b3) 2) (encSymbol (rawValue b0 b1 b2 b3) 3)
        (encSymbol (rawValue b0 b1 b2 b3) 4) := rfl

/-- R57: no `ENC` response begins with `$` or `#`. -/
theorem lane_encResponse_0_ne (pad b0 b1 b2 b3 : Byte) :
    lane (encResponse pad b0 b1 b2 b3).dout 0 ≠ 0x24#8 ∧ lane (encResponse pad b0 b1 b2 b3).dout 0 ≠ 0x23#8 := by
  rw [encResponse_dout, lane_packLanes_0]
  exact alpha_ne_dollar_and_ne_hash (encDigit_zero_le (rawValue_lt ..))

end Sys2Proof.Machine
end

section
/-! The `ENC` operation (40_encode_chunk.md, R55 to R59). -/

namespace Sys2Proof.Machine

/-- Settles O13: the digits are those of `encDigit`; five digits with the same value are the digits of that value; and
delivering their symbols is all that `ENC` does. -/
theorem encDeliversTheFiveSymbols : Obligations.EncDeliversTheFiveSymbols := by
  refine ⟨fun pad b0 b1 b2 b3 s => ?_, by decide +kernel, by decide +kernel, by decide +kernel⟩
  have hsum := digitsValue_encDigit (rawValue_lt b0 b1 b2 b3)
  rw [digitsValue_eq] at hsum
  obtain ⟨h0, h1, h2, h3, h4⟩ := encDigit_val (rawValue b0 b1 b2 b3)
  obtain ⟨hdollar, hhash⟩ := lane_encResponse_0_ne pad b0 b1 b2 b3
  refine ⟨_, _, _, _, _, encResponse pad b0 b1 b2 b3, h0, h1, h2, h3, h4, hsum.symm, fun e0 e1 e2 e3 e4 he => ?_,
    encResponse_dout .., encResponse_inv .., encResponse_ovf .., hdollar, hhash, exec_eq_deliver ..⟩
  have hdigits : rawValue b0 b1 b2 b3 = digitsValue (fun j => (![e0, e1, e2, e3, e4] j).val) := by
    rw [digitsValue_eq]
    exact he
  have hunique (i : Fin 5) := (encDigit_digitsValue ![e0, e1, e2, e3, e4] i).symm
  rw [← hdigits] at hunique
  exact ⟨hunique 0, hunique 1, hunique 2, hunique 3, hunique 4⟩

end Sys2Proof.Machine
end

section
/-! SUPPORT. The `DEC` response in the terms of R60, the first symbols that decide its `ovf`, and the bytes that act as
digit 0 (R61). -/

namespace Sys2Proof.Machine

/-- R60, with the data as one concatenation. -/
theorem decResponse_eq (c0 c1 c2 c3 c4 : Byte) :
    decResponse c0 c1 c2 c3 c4 =
      { dout := 0x00#8 ++ decData Config.decOvf (decValue c0 c1 c2 c3 c4)
        inv := invFlag c0 c1 c2 c3 c4
        ovf := ovfFlag (decValue c0 c1 c2 c3 c4) } := by
  rw [← packResult_eq_append]
  rfl

/-- R60: even with 84 in the other four places the value stops at 82 * 85^4 - 1. -/
theorem decValue_lt_of_first_le_81 {c0 : Byte} (h : (didx c0).toNat ≤ 81) (c1 c2 c3 c4 : Byte) :
    decValue c0 c1 c2 c3 c4 < 2 ^ 32 := by
  have h1 := didx_lt c1; have h2 := didx_lt c2; have h3 := didx_lt c3; have h4 := didx_lt c4
  rw [decValue_eq]
  omega

theorem le_decValue_iff_of_first_eq_82 {c0 : Byte} (h : (didx c0).toNat = 82) (c1 c2 c3 c4 : Byte) :
    2 ^ 32 ≤ decValue c0 c1 c2 c3 c4 ↔
      14516045 < (didx c1).toNat * 614125 + (didx c2).toNat * 7225 + (didx c3).toNat * 85 + (didx c4).toNat := by
  rw [decValue_eq, h]
  omega

theorem le_decValue_of_83_le_first {c0 : Byte} (h : 83 ≤ (didx c0).toNat) (c1 c2 c3 c4 : Byte) :
    2 ^ 32 ≤ decValue c0 c1 c2 c3 c4 := by
  rw [decValue_eq]
  omega

/-- The symbols `$` and `#` are the last two of the Alphabet. -/
theorem le_didx_of_dollar_or_hash {c : Byte} (h : c = 0x24#8 ∨ c = 0x23#8) : 83 ≤ (didx c).toNat := by
  obtain rfl | rfl := h
  · decide +kernel
  · decide +kernel

/-- The bytes with index 0: the non-symbols and the symbol `0`. -/
theorem didx_eq_zero_iff (b : Byte) : (didx b).toNat = 0 ↔ dval b = false ∨ b = 0x30#8 := by
  constructor
  · intro h
    cases hb : dval b with
    | false => exact .inl rfl
    | true =>
      have hsym := alpha_didx hb
      simp only [h] at hsym
      exact .inr hsym.symm
  · rintro (h | rfl)
    · rw [didx_eq_zero_of_not_dval h]
      rfl
    · decide +kernel

/-- R61: the symbol `0` and the 171 non-symbols. -/
theorem count_didx_eq_zero : ((List.range 256).filter (fun n => (didx (BitVec.ofNat 8 n)).toNat = 0)).length = 172 := by
  have hsum := List.length_eq_length_filter_add (fun n => dval (BitVec.ofNat 8 n))
    (l := (List.range 256).filter (fun n => (didx (BitVec.ofNat 8 n)).toNat = 0))
  rw [List.filter_filter, List.filter_filter] at hsum
  have hsymbol : (List.range 256).filter
      (fun n => dval (BitVec.ofNat 8 n) && (didx (BitVec.ofNat 8 n)).toNat = 0) = [0x30] := by
    decide +kernel
  have hdots : (List.range 256).filter
      (fun n => !dval (BitVec.ofNat 8 n) && (didx (BitVec.ofNat 8 n)).toNat = 0) =
        (List.range 256).filter (fun n => !dval (BitVec.ofNat 8 n)) :=
    List.filter_congr fun n _ => by cases h : dval (BitVec.ofNat 8 n) <;> simp [didx_eq_zero_iff, h]
  rw [hsum, hsymbol, hdots, count_not_dval]
  rfl

/-- R61: `0` in the place of a non-symbol leaves every index as it was. -/
theorem didx_replace_nonSymbol {c : Fin 5 → Byte} {k : Fin 5} (hk : dval (c k) = false) (i : Fin 5) :
    didx (c i) = didx (if i = k then 0x30#8 else c i) := by
  split
  · next hi =>
    rw [hi, didx_eq_zero_of_not_dval hk]
    decide +kernel
  · rfl

end Sys2Proof.Machine
end

section
/-! The `DEC` operation (41_decode_chunk.md, R60 and R61). -/

namespace Sys2Proof.Machine

/-- Settles O19: delivering the response of R60 is all that `DEC` does; which first symbols overflow is arithmetic on
digits below 85; the corner cases are evaluated, none of them reading `DEC_OVF`. -/
theorem decDeliversTheValueAndFlags : Obligations.DecDeliversTheValueAndFlags := by
  refine ⟨fun c0 c1 c2 c3 c4 s => ⟨decData Config.decOvf (decValue c0 c1 c2 c3 c4), ?_⟩,
    fun c0 c1 c2 c3 c4 => ?_, by decide +kernel⟩
  · rw [← decValue_eq]
    refine ⟨decData_toNat_of_lt _ _, decData_of_le _ _, ?_⟩
    rw [exec_eq_deliver, respond_dec, decResponse_eq]
    rfl
  · rw [z85ct_encode, respond_dec]
    refine ⟨fun h => ?_, fun h => ?_, fun h => ?_⟩
    · exact decide_eq_false (Nat.not_le.mpr (decValue_lt_of_first_le_81 h c1 c2 c3 c4))
    · rw [decResponse_ovf, ovfFlag_eq_true_iff, le_decValue_iff_of_first_eq_82 h]
    · rw [decResponse_ovf, ovfFlag_eq_true_iff]
      exact le_decValue_of_83_le_first (le_didx_of_dollar_or_hash h) c1 c2 c3 c4

/-- Settles O22: a non-symbol and `0` have the same index, and data and `ovf` read only the indices. -/
theorem nonSymbolDecodesAsDigitZero : Obligations.NonSymbolDecodesAsDigitZero := by
  refine ⟨fun c k hk => ?_, count_didx_eq_zero⟩
  have hvalue := decValue_congr (didx_replace_nonSymbol hk)
  simp only [z85ct_encode, respond_dec]
  refine ⟨(didx_eq_zero_iff _).mpr (.inl hk), ?_, ?_, (invFlag_eq_true_iff c).mpr ⟨k, hk⟩⟩
  · rw [decResponse_dout, decResponse_dout, hvalue]
  · rw [decResponse_ovf, decResponse_ovf, hvalue]

end Sys2Proof.Machine
end

section
/-! SUPPORT. Cutting a sequence into groups, said once for the bulk procedures of both directions: they are all one
left-to-right map over the whole groups, with a treatment of their own for what is left. -/

namespace Sys2Proof.Machine

/-- The whole groups of `size` elements of `s`, in order. -/
def wholeGroups (size : Nat) (s : List Byte) : List (List Byte) :=
  (List.range (s.length / size)).map (fun g => slice s (size * g) (size * g + size))

/-- What is left of `s` after its whole groups of `size` elements. -/
def leftover (size : Nat) (s : List Byte) : List Byte := s.drop (size * (s.length / size))

/-- `p` padded on the right to a group of `size` elements (R71, R74). -/
def padded (size : Nat) (pad : Byte) (p : List Byte) : List Byte := p ++ List.replicate (size - p.length) pad

/-- The shape of every bulk procedure: `whole` on each whole group of `s`, then `last` on what is left, if anything. -/
def byGroups {α : Type} (size : Nat) (whole last : List Byte → List α) (s : List Byte) : List α :=
  (wholeGroups size s).flatMap whole ++ if s.length % size = 0 then [] else last (leftover size s)

theorem slice_drop (s : List Byte) (n i j : Nat) : slice (s.drop n) i j = slice s (n + i) (n + j) := by
  simp only [slice, List.drop_drop, Nat.add_sub_add_left]

theorem slice_to_end (s : List Byte) (i : Nat) : slice s i s.length = s.drop i :=
  List.take_of_length_le (List.length_drop ▸ Nat.le_refl _)

theorem wholeGroups_length (size : Nat) (s : List Byte) : (wholeGroups size s).length = s.length / size := by
  rw [wholeGroups, List.length_map, List.length_range]

theorem leftover_length (size : Nat) (s : List Byte) : (leftover size s).length = s.length % size := by
  rw [leftover, List.length_drop, Nat.mod_def]

theorem padded_leftover (size : Nat) (pad : Byte) (s : List Byte) :
    padded size pad (leftover size s) =
      slice s (size * (s.length / size)) s.length ++ List.replicate (size - s.length % size) pad := by
  rw [padded, leftover_length, leftover, slice_to_end]

variable {size : Nat} {s : List Byte}

theorem wholeGroups_of_lt (h : s.length < size) : wholeGroups size s = [] := by
  rw [wholeGroups, Nat.div_eq_of_lt h]
  rfl

theorem leftover_of_lt (h : s.length < size) : leftover size s = s := by
  rw [leftover, Nat.div_eq_of_lt h]
  rfl

/-- One whole group more than in the sequence without its first group. -/
theorem length_div_of_le (h0 : 0 < size) (h : size ≤ s.length) :
    s.length / size = (s.drop size).length / size + 1 := by
  rw [List.length_drop]
  exact Nat.div_eq_sub_div h0 h

theorem wholeGroups_of_le (h0 : 0 < size) (h : size ≤ s.length) :
    wholeGroups size s = s.take size :: wholeGroups size (s.drop size) := by
  have hshift (g : Nat) : slice s (size * (g + 1)) (size * (g + 1) + size) =
      slice (s.drop size) (size * g) (size * g + size) := by
    rw [slice_drop, Nat.mul_succ, Nat.add_comm (size * g) size, Nat.add_assoc, Nat.add_comm (size * g) size]
  simp only [wholeGroups, length_div_of_le h0 h, List.range_succ_eq_map, List.map_cons, List.map_map,
    Function.comp_def, Nat.succ_eq_add_one, hshift]
  simp [slice]

theorem leftover_of_le (h0 : 0 < size) (h : size ≤ s.length) : leftover size s = leftover size (s.drop size) := by
  rw [leftover, leftover, length_div_of_le h0 h, List.drop_drop, Nat.mul_succ, Nat.add_comm]

variable {α : Type} (whole last : List Byte → List α)

/-- The form in which the model writes the bulk procedures out. -/
theorem byGroups_eq_ite : byGroups size whole last s =
    if s.length % size > 0 then
      (List.range (s.length / size)).flatMap (fun g => whole (slice s (size * g) (size * g + size))) ++
        last (leftover size s)
    else (List.range (s.length / size)).flatMap (fun g => whole (slice s (size * g) (size * g + size))) := by
  rw [byGroups, wholeGroups, List.flatMap_map]
  by_cases h : s.length % size = 0
  · simp [h]
  · simp [h, Nat.pos_of_ne_zero h]

@[simp] theorem byGroups_nil : byGroups size whole last [] = [] := by simp [byGroups, wholeGroups]

/-- A whole group contributes first, and the rest is treated after it. -/
theorem byGroups_of_le (h0 : 0 < size) (h : size ≤ s.length) :
    byGroups size whole last s = whole (s.take size) ++ byGroups size whole last (s.drop size) := by
  have hmod : s.length % size = (s.drop size).length % size := by
    rw [List.length_drop]
    exact Nat.mod_eq_sub_mod h
  simp only [byGroups, wholeGroups_of_le h0 h, leftover_of_le h0 h, hmod, List.flatMap_cons, List.append_assoc]

/-- A sequence shorter than a group is what is left of it. -/
theorem byGroups_of_lt (h0 : s ≠ []) (h : s.length < size) : byGroups size whole last s = last s := by
  have hmod : s.length % size ≠ 0 := by
    rw [Nat.mod_eq_of_lt h]
    exact mt List.length_eq_zero_iff.mp h0
  rw [byGroups, wholeGroups_of_lt h, leftover_of_lt h, if_neg hmod]
  rfl

end Sys2Proof.Machine
end

section
/-! SUPPORT. The bulk procedures and the requests they make, in the shape of `byGroups`. -/

namespace Sys2Proof.Machine

/-- What the bulk procedure of a direction makes of a last group of `p` elements (R71, R74). -/
def Direction.lastOutput (d : Direction) (p : List Byte) : List Byte :=
  (d.output (z85ct (d.request (padded d.size d.pad p)))).take (d.keep p.length)

/-- The requests made for a last group of `p` elements: none where it keeps nothing and is skipped (R76; log 13). -/
def Direction.lastRequests (d : Direction) (p : List Byte) : List ReqWord :=
  if d.keep p.length = 0 ∧ Config.skipsOneSymbolGroup then [] else [d.request (padded d.size d.pad p)]

/-- The bulk procedure of a direction (R71, R74). -/
def Direction.bulk (d : Direction) : List Byte → List Byte :=
  byGroups d.size (fun g => d.output (z85ct (d.request g))) d.lastOutput

/-- The requests of the bulk procedure of a direction, in order. -/
def Direction.bulkRequests (d : Direction) : List Byte → List ReqWord :=
  byGroups d.size (fun g => [d.request g]) d.lastRequests

theorem Direction.size_pos (d : Direction) : 0 < d.size := by cases d <;> decide

theorem Direction.keep_size_ne_zero (d : Direction) : d.keep d.size ≠ 0 := by cases d <;> decide

/-- A whole group's output is kept whole: five symbols or four bytes. -/
theorem Direction.take_keep_size_output (d : Direction) (r : Response) :
    (d.output r).take (d.keep d.size) = d.output r := by
  cases d <;> rfl

theorem encodeBytes_eq_bulk (b : List Byte) : encodeBytes b = Direction.encoder.bulk b := by
  rw [Direction.bulk, byGroups_eq_ite, Direction.lastOutput, leftover_length, padded_leftover]
  rfl

theorem decodeText_eq_bulk (t : List Byte) : decodeText t = Direction.decoder.bulk t := by
  rw [Direction.bulk, byGroups_eq_ite, Direction.lastOutput, leftover_length, padded_leftover]
  rfl

theorem groups_eq_byGroups (size : Nat) (pad : Byte) (s : List Byte) :
    groups size pad s = byGroups size (fun g => [g]) (fun p => [padded size pad p]) s := by
  rw [byGroups_eq_ite, padded_leftover, ← List.map_eq_flatMap]
  rfl

/-- The requests for the groups of a sequence, its last one padded. -/
theorem map_groups (f : List Byte → ReqWord) (size : Nat) (pad : Byte) (s : List Byte) :
    (groups size pad s).map f = (wholeGroups size s).map f ++
      if s.length % size = 0 then [] else [f (padded size pad (leftover size s))] := by
  rw [groups_eq_byGroups, byGroups, List.flatMap_singleton', List.map_append]
  split <;> rfl

theorem Direction.bulkRequests_eq (d : Direction) (s : List Byte) :
    d.bulkRequests s = (wholeGroups d.size s).map d.request ++
      if s.length % d.size = 0 then [] else d.lastRequests (leftover d.size s) := by
  rw [Direction.bulkRequests, byGroups, List.map_eq_flatMap]

/-- An encoder's last group always keeps a symbol, so its request is always made. -/
theorem lastRequests_encoder (p : List Byte) :
    Direction.encoder.lastRequests p = [encRequest (padded 4 zeroPad p)] :=
  if_neg fun h => by have := h.1; simp only [Direction.keep] at this; omega

theorem encodeRequests_eq_bulkRequests (b : List Byte) : encodeRequests b = Direction.encoder.bulkRequests b := by
  rw [encodeRequests, map_groups, Direction.bulkRequests_eq, lastRequests_encoder]
  rfl

/-- A decoder's last group keeps nothing where it has one symbol. -/
theorem keep_decoder_eq_zero_iff {k : Nat} (h : k ≠ 0) : Direction.decoder.keep k = 0 ↔ k = 1 := by
  simp only [Direction.keep]
  omega

theorem decodeRequests_eq_bulkRequests (t : List Byte) : decodeRequests t = Direction.decoder.bulkRequests t := by
  rw [decodeRequests, map_groups, Direction.bulkRequests_eq, Direction.lastRequests, leftover_length]
  by_cases h0 : t.length % 5 = 0
  · simp [h0, Direction.size, Direction.request]
  · have hkeep : Direction.decoder.keep (t.length % 5) = 0 ↔ t.length % 5 = 1 := keep_decoder_eq_zero_iff h0
    simp only [Direction.size, hkeep, if_neg h0]
    by_cases hskip : t.length % 5 = 1 ∧ Config.skipsOneSymbolGroup = true
    · rw [if_pos hskip, if_pos hskip, List.dropLast_concat, List.append_nil]
      rfl
    · rw [if_neg hskip, if_neg hskip]
      rfl

end Sys2Proof.Machine
end

section
/-! SUPPORT. One group of a bulk procedure at a time: the whole group in front, or the last one. -/

namespace Sys2Proof.Machine

variable (d : Direction) {s : List Byte}

@[simp] theorem Direction.bulk_nil : d.bulk [] = [] := byGroups_nil ..

@[simp] theorem Direction.bulkRequests_nil : d.bulkRequests [] = [] := byGroups_nil ..

theorem Direction.bulk_of_le (h : d.size ≤ s.length) :
    d.bulk s = d.output (z85ct (d.request (s.take d.size))) ++ d.bulk (s.drop d.size) :=
  byGroups_of_le _ _ d.size_pos h

theorem Direction.bulkRequests_of_le (h : d.size ≤ s.length) :
    d.bulkRequests s = d.request (s.take d.size) :: d.bulkRequests (s.drop d.size) :=
  byGroups_of_le _ _ d.size_pos h

theorem Direction.bulk_of_lt (h0 : s ≠ []) (h : s.length < d.size) : d.bulk s = d.lastOutput s :=
  byGroups_of_lt _ _ h0 h

theorem Direction.bulkRequests_of_lt (h0 : s ≠ []) (h : s.length < d.size) : d.bulkRequests s = d.lastRequests s :=
  byGroups_of_lt _ _ h0 h

end Sys2Proof.Machine
end

section
/-! SUPPORT. How long the outputs of the bulk procedures are, and how many requests they make. -/

namespace Sys2Proof.Machine

theorem Direction.output_length (d : Direction) (r : Response) : (d.output r).length = d.keep d.size := by
  cases d <;> rfl

theorem Direction.keep_le (d : Direction) (k : Nat) : d.keep k ≤ d.keep d.size := by
  cases d <;> exact Nat.sub_le ..

theorem Direction.lastOutput_length (d : Direction) (p : List Byte) : (d.lastOutput p).length = d.keep p.length := by
  rw [lastOutput, List.length_take, d.output_length, Nat.min_eq_left (d.keep_le _)]

/-- The length law of both bulk procedures (R72, R74). -/
theorem Direction.bulk_length (d : Direction) (s : List Byte) :
    (d.bulk s).length =
      d.keep d.size * (s.length / d.size) + if s.length % d.size = 0 then 0 else d.keep (s.length % d.size) := by
  rw [bulk, byGroups, List.length_append, List.length_flatMap]
  congr 1
  · simp [d.output_length, wholeGroups_length, Nat.mul_comm]
  · split
    · rfl
    · rw [d.lastOutput_length, leftover_length]

theorem decodeText_length (t : List Byte) : (decodeText t).length = decodedLength t.length := by
  have hkeep : Direction.decoder.keep (t.length % 5) = t.length % 5 - 1 := by
    simp only [Direction.keep]
    omega
  rw [decodeText_eq_bulk, Direction.bulk_length, decodedLength, ← hkeep]
  rfl

/-- One request for each group, but for a last group that keeps nothing and is skipped (R71, R74, R76; log 13). -/
theorem Direction.bulkRequests_length (d : Direction) (s : List Byte) :
    (d.bulkRequests s).length = s.length / d.size +
      if s.length % d.size = 0 ∨ d.keep (s.length % d.size) = 0 ∧ Config.skipsOneSymbolGroup then 0 else 1 := by
  rw [bulkRequests_eq, List.length_append, List.length_map, wholeGroups_length, lastRequests, leftover_length]
  by_cases h0 : s.length % d.size = 0
  · simp [h0]
  · rw [if_neg h0]
    simp only [h0, false_or]
    split <;> rfl

theorem encodeRequests_length (b : List Byte) : (encodeRequests b).length = (b.length + 3) / 4 := by
  rw [encodeRequests_eq_bulkRequests, Direction.bulkRequests_length]
  split
  · next h => simp only [Direction.size, Direction.keep] at h ⊢; omega
  · next h => simp only [Direction.size, Direction.keep] at h ⊢; omega

theorem decodeRequests_length (t : List Byte) :
    (decodeRequests t).length = (t.length + 4) / 5 ∨
      t.length % 5 = 1 ∧ (decodeRequests t).length + 1 = (t.length + 4) / 5 := by
  rw [decodeRequests_eq_bulkRequests, Direction.bulkRequests_length]
  split
  · next h => simp only [Direction.size, Direction.keep] at h ⊢; omega
  · next h => simp only [Direction.size, Direction.keep] at h ⊢; omega

end Sys2Proof.Machine
end

section
/-! The bulk codec, group by group (42_host_framing.md, R71 and R74). -/

namespace Sys2Proof.Machine

/-- Settles O40: the bulk encoder takes a whole group off the front, or is at its last one; the vector is evaluated. -/
theorem bulkEncodeByGroups : Obligations.BulkEncodeByGroups := by
  refine ⟨rfl, fun b0 b1 b2 b3 rest => ?_, fun p h1 h3 => ?_, encodeRequests_length, by decide +kernel⟩
  · have hle : Direction.encoder.size ≤ (b0 :: b1 :: b2 :: b3 :: rest).length := Nat.le_add_left 4 rest.length
    rw [encodeBytes_eq_bulk, Direction.bulk_of_le _ hle, encodeBytes_eq_bulk]
    rfl
  · have hlt : p.length < Direction.encoder.size := Nat.lt_succ_of_le h3
    have hkeep : 5 - (4 - p.length) = p.length + 1 := by omega
    rw [encodeBytes_eq_bulk, Direction.bulk_of_lt _ (List.ne_nil_of_length_pos h1) hlt, ← hkeep]
    rfl

/-- Settles O42: likewise for the bulk decoder, whose padding symbol is `#`. -/
theorem bulkDecodeByGroups : Obligations.BulkDecodeByGroups := by
  refine ⟨rfl, fun c0 c1 c2 c3 c4 rest => ?_, fun p h1 h4 => ?_,
    fun t => ⟨decodeText_length t, decodeRequests_length t⟩, by decide +kernel⟩
  · have hle : Direction.decoder.size ≤ (c0 :: c1 :: c2 :: c3 :: c4 :: rest).length := Nat.le_add_left 5 rest.length
    rw [decodeText_eq_bulk, Direction.bulk_of_le _ hle, decodeText_eq_bulk]
    rfl
  · have hlt : p.length < Direction.decoder.size := Nat.lt_succ_of_le h4
    have hkeep : 4 - (5 - p.length) = p.length - 1 := by omega
    have hpad : padSymbol = 0x23#8 := by decide +kernel
    rw [decodeText_eq_bulk, Direction.bulk_of_lt _ (List.ne_nil_of_length_pos h1) hlt, ← hkeep, ← hpad]
    rfl

end Sys2Proof.Machine
end

section
/-! SUPPORT. The calls on a stream whose status and `closed` are known, beside those of `write_of_open` and
`call_of_error`. -/

namespace Sys2Proof.Machine

/-- A `write` after a `close` that left no error (R82). -/
theorem write_of_closed {s : Stream} (p : List Byte) (ho : s.status = .opened) (hc : s.closed = true) :
    s.write p = (s, { count := rejectedWriteCount p.length, error := some .closed }) := by
  rw [Stream.write, hc, ho]

/-- A `write` in `Error(e)`, closed or not (R80, R82). -/
theorem write_of_error {s : Stream} {e : HostError} (p : List Byte) (h : s.status = .error e) :
    s.write p = (s, { count := rejectedWriteCount p.length, error := some e }) := by
  rw [Stream.write, h]
  cases s.closed <;> rfl

/-- A second `close` that finds no error (C4). -/
theorem close_of_closed {s : Stream} (ho : s.status = .opened) (hc : s.closed = true) : s.close = (s, none) := by
  rw [Stream.close, ho, hc]
  rfl

/-- A `close` in `Error(e)` (R80, R81). -/
theorem close_of_error {s : Stream} {e : HostError} (h : s.status = .error e) :
    s.close = ({ s with closed := true }, some e) := by
  rw [Stream.close, h]

/-- The first `close` of a stream that is not in `Error` (R81, R86). -/
theorem close_of_open {s : Stream} (ho : s.status = .opened) (hc : s.closed = false) :
    s.close = if s.carry = [] then ({ s with closed := true }, none) else { s with closed := true }.flush := by
  rw [Stream.close, ho, hc]
  rfl

end Sys2Proof.Machine
end

section
/-! SUPPORT. A stream that nothing can fail (R83, R87). What its sink holds and what it has presented, each followed by
what the bulk procedure makes of the carried elements and of those still to be written, is the same before and after
every call: so it is the bulk procedure's from creation to `close`. -/

namespace Sys2Proof.Machine

/-- An open stream that can meet no failure: its sink never fails and it rejects no response. -/
structure Unfailing (s : Stream) : Prop where
  opened : s.status = .opened
  notClosed : s.closed = false
  carryFits : CarryFits s
  neverFails : NeverFails s.sink
  rejectsNone : ∀ r, s.direction.rejects s.strict r = false

/-- What the sink has to hold once `rest` is written and the stream is closed. -/
def Stream.finalContent (s : Stream) (rest : List Byte) : List Byte :=
  s.sink.content ++ s.direction.bulk (s.carry ++ rest)

/-- What the stream has to have presented once `rest` is written and it is closed. -/
def Stream.finalPresented (s : Stream) (rest : List Byte) : List ReqWord :=
  s.presented ++ s.direction.bulkRequests (s.carry ++ rest)

/-- The loop over `k` whole groups of `p`: it does the bulk procedure's work on them and carries the rest of `p`. -/
theorem emitGroups_of_neverFails (s : Stream) (k : Nat) (p : List Byte) (hk : NeverFails s.sink)
    (hr : ∀ r, s.direction.rejects s.strict r = false) (hp : s.direction.size * k ≤ p.length) :
    ∃ k' ws, s.emitGroups k p =
        ({ s with carry := p.drop (s.direction.size * k), presented := s.presented ++ ws, sink := k' }, none) ∧
      NeverFails k' ∧ ∀ rest,
        k'.content ++ s.direction.bulk (p.drop (s.direction.size * k) ++ rest) =
          s.sink.content ++ s.direction.bulk (p ++ rest) ∧
        ws ++ s.direction.bulkRequests (p.drop (s.direction.size * k) ++ rest) =
          s.direction.bulkRequests (p ++ rest) := by
  induction k generalizing s p with
  | zero => exact ⟨s.sink, [], by simp [Stream.emitGroups], hk, fun rest => by simp⟩
  | succ k ih =>
    rw [Nat.mul_succ] at hp
    obtain ⟨k1, hemit, hcontent, hk1⟩ :=
      emit_of_neverFails s (p.take s.direction.size) (s.direction.keep s.direction.size) hk (hr _)
    obtain ⟨k', ws, hloop, hk', hrest⟩ := ih
      { s with presented := s.presented ++ [s.direction.request (p.take s.direction.size)], sink := k1 }
      (p.drop s.direction.size) hk1 hr (by rw [List.length_drop]; exact Nat.le_sub_of_add_le hp)
    rw [List.drop_drop, Nat.add_comm, ← Nat.mul_succ] at hloop hrest
    refine ⟨k', s.direction.request (p.take s.direction.size) :: ws, ?_, hk', fun rest => ?_⟩
    · rw [Stream.emitGroups, hemit]
      simpa using hloop
    · have hle : s.direction.size ≤ p.length := by omega
      have hle' : s.direction.size ≤ (p ++ rest).length := by rw [List.length_append]; omega
      obtain ⟨hbulk, hreqs⟩ := hrest rest
      rw [s.direction.bulk_of_le hle', s.direction.bulkRequests_of_le hle', List.take_append_of_le_length hle,
        List.drop_append_of_le_length hle, hbulk, List.cons_append, hreqs, hcontent,
        Direction.take_keep_size_output, List.append_assoc]
      exact ⟨rfl, rfl⟩

/-- A `write` of such a stream. -/
theorem write_of_unfailing {s : Stream} (hs : Unfailing s) (p : List Byte) :
    Unfailing (s.write p).1 ∧ ∀ rest,
      (s.write p).1.finalContent rest = s.finalContent (p ++ rest) ∧
      (s.write p).1.finalPresented rest = s.finalPresented (p ++ rest) := by
  obtain ⟨hopened, hclosed, hfits, hk, hr⟩ := hs
  obtain ⟨k', ws, hloop, hk', hrest⟩ := emitGroups_of_neverFails { s with carry := [] }
    ((s.carry ++ p).length / s.direction.size) (s.carry ++ p) hk hr (Nat.mul_div_le ..)
  rw [write_of_open s p hopened hclosed, absorb_eq_emitGroups s p hfits, hloop]
  refine ⟨⟨hopened, hclosed, ?_, hk', hr⟩, fun rest => ?_⟩
  · rw [CarryFits, List.length_drop, ← Nat.mod_def]
    exact Nat.mod_lt _ s.direction.size_pos
  · simp only [Stream.finalContent, Stream.finalPresented, ← List.append_assoc s.carry, List.append_assoc s.presented]
    exact ⟨(hrest rest).1, congrArg (s.presented ++ ·) (hrest rest).2⟩

/-- The final group of a `close` of such a stream is the bulk procedure's last group. -/
theorem flush_of_unfailing (s : Stream) (h0 : s.carry ≠ []) (hfits : CarryFits s) (hk : NeverFails s.sink)
    (hr : ∀ r, s.direction.rejects s.strict r = false) :
    ∃ k', s.flush.1 = { s with carry := [], presented := s.finalPresented [], sink := k' } ∧
      k'.content = s.finalContent [] := by
  simp only [Stream.finalContent, Stream.finalPresented, List.append_nil, s.direction.bulk_of_lt h0 hfits,
    s.direction.bulkRequests_of_lt h0 hfits, Direction.lastOutput, Direction.lastRequests, Stream.flush]
  split
  · next hskip => exact ⟨s.sink, by simp, by simp [hskip.1]⟩
  · obtain ⟨k', hemit, hcontent, -⟩ := emit_of_neverFails { s with carry := [] }
      (padded s.direction.size s.direction.pad s.carry) (s.direction.keep s.carry.length) hk (hr _)
    exact ⟨k', congrArg Prod.fst hemit, hcontent⟩

theorem close_of_unfailing {s : Stream} (hs : Unfailing s) :
    ∃ k', s.close.1 = { s with carry := [], closed := true, presented := s.finalPresented [], sink := k' } ∧
      k'.content = s.finalContent [] := by
  obtain ⟨hopened, hclosed, hfits, hk, hr⟩ := hs
  rw [close_of_open hopened hclosed]
  split
  · next h0 =>
    exact ⟨s.sink, by simp [h0, Stream.finalPresented], by simp [h0, Stream.finalContent]⟩
  · next h0 => exact flush_of_unfailing { s with closed := true } h0 hfits hk hr

/-- Written in any pieces and closed, such a stream has done what its bulk procedure does with all of it. -/
theorem run_of_unfailing {s : Stream} (hs : Unfailing s) (ps : List (List Byte)) :
    (s.run ps).sink.content = s.finalContent ps.flatten ∧ (s.run ps).presented = s.finalPresented ps.flatten ∧
      (s.run ps).status = .opened ∧ (s.run ps).closed = true ∧ (s.run ps).carry = [] := by
  induction ps generalizing s with
  | nil =>
    obtain ⟨k', hclose, hcontent⟩ := close_of_unfailing hs
    rw [Stream.run, Stream.writes, List.map_nil, Stream.calls, List.foldl_nil, hclose]
    exact ⟨hcontent, rfl, hs.opened, rfl, rfl⟩
  | cons p ps ih =>
    obtain ⟨hs', hrest⟩ := write_of_unfailing hs p
    rw [List.flatten_cons, ← (hrest _).1, ← (hrest _).2]
    exact ih hs'

/-- A new encoder on a sink that never fails: an encoder rejects nothing (R14, R15). -/
theorem unfailing_create_encoder (strict : Bool) {k : Sink} (hk : NeverFails k) :
    Unfailing (Stream.create .encoder strict k) :=
  ⟨rfl, rfl, Direction.size_pos _, hk, fun _ => rfl⟩

end Sys2Proof.Machine
end

section
/-! The streaming encoder and the bulk one (42_host_framing.md, R83). -/

namespace Sys2Proof.Machine

/-- Settles O55: a new encoder carries nothing and has presented nothing, so what it has to put and to present in the
end is what the bulk encoder makes of all the pieces. -/
theorem streamEncoderEqualsBulkEncode : Obligations.StreamEncoderEqualsBulkEncode := by
  intro strict k ps hk
  obtain ⟨hcontent, hpresented, hstate⟩ := run_of_unfailing (unfailing_create_encoder strict hk) ps
  rw [encodeBytes_eq_bulk, encodeRequests_eq_bulkRequests]
  exact ⟨hcontent, hpresented, hstate⟩

end Sys2Proof.Machine
end

section
/-! SUPPORT. The sticky error (R80). The failing answers among those of the puts made are reported: said of one `put`,
carried through the loop over the groups to every call, since the loop goes on only where nothing was reported. -/

namespace Sys2Proof.Machine

/-- From `k` to `k'` some puts were made and answered in order, and `err` reports every failing answer among them. -/
def PutsReport (k k' : Sink) (err : Option HostError) : Prop :=
  ∃ puts : List (List Byte), k'.received = k.received ++ puts ∧ k'.answers = k.answers.drop puts.length ∧
    ∀ e kept, .fail e kept ∈ k.answers.take puts.length → err = some (.sink e)

theorem putsReport_refl (k : Sink) (err : Option HostError) : PutsReport k k err :=
  ⟨[], (List.append_nil _).symm, rfl, fun _ _ h => nomatch h⟩

theorem putsReport_put (k : Sink) (g : List Byte) : PutsReport k (k.put g).1 (k.put g).2 := by
  obtain ⟨received, answers⟩ := k
  match answers with
  | [] => exact ⟨[g], rfl, rfl, fun _ _ h => nomatch h⟩
  | .ok :: rest => exact ⟨[g], rfl, rfl, fun e kept h => by simp at h⟩
  | .fail x n :: rest =>
    refine ⟨[g.take (min n (g.length - 1))], rfl, rfl, fun e kept h => ?_⟩
    obtain ⟨rfl, -⟩ : e = x ∧ kept = n := by simpa using h
    rfl

/-- Where the first puts reported nothing, none of their answers was a failure. -/
theorem PutsReport.trans {k k' k'' : Sink} {err : Option HostError} (h : PutsReport k k' none)
    (h' : PutsReport k' k'' err) : PutsReport k k'' err := by
  obtain ⟨puts, hreceived, hanswers, hnone⟩ := h
  obtain ⟨puts', hreceived', hanswers', herr⟩ := h'
  refine ⟨puts ++ puts', ?_, ?_, fun e kept hmem => ?_⟩
  · rw [hreceived', hreceived, List.append_assoc]
  · rw [hanswers', hanswers, List.drop_drop, List.length_append]
  · rw [List.length_append, List.take_add, List.mem_append, ← hanswers] at hmem
    rcases hmem with hmem | hmem
    · exact nomatch hnone e kept hmem
    · exact herr e kept hmem

/-- `r`, a stream and the error returned with it, reports and remembers the failures of the puts made since its sink was
`k`. -/
structure Reports (k : Sink) (r : Stream × Option HostError) : Prop where
  reported : PutsReport k r.1.sink r.2
  remembered : ∀ e, r.2 = some (.sink e) → r.1.status = .error (.sink e)

theorem emit_reports (s : Stream) (g : List Byte) (keep : Nat) : Reports s.sink (s.emit g keep) := by
  generalize h : s.emit g keep = r
  obtain ⟨t, err⟩ := r
  have hreport := putsReport_put s.sink ((s.direction.output (z85ct (s.direction.request g))).take keep)
  rcases emit_cases s t g keep err h with
    ⟨-, rfl, rfl⟩ | ⟨-, ⟨-, rfl, rfl⟩ | ⟨-, rfl, k, hput, rfl⟩ | ⟨-, x, k, rfl, hput, rfl⟩⟩
  · exact ⟨putsReport_refl .., nofun⟩
  · exact ⟨putsReport_refl .., nofun⟩
  · rw [hput] at hreport
    exact ⟨hreport, nofun⟩
  · rw [hput] at hreport
    exact ⟨hreport, fun e he => congrArg Status.error (Option.some.inj he)⟩

theorem emitGroups_reports (s : Stream) (k : Nat) (p : List Byte) : Reports s.sink (s.emitGroups k p) := by
  induction k generalizing s p with
  | zero => exact ⟨putsReport_refl .., nofun⟩
  | succ k ih =>
    have hemit := emit_reports s (p.take s.direction.size) (s.direction.keep s.direction.size)
    rw [Stream.emitGroups]
    split
    · next t heq =>
      rw [heq] at hemit
      obtain ⟨hreported, hremembered⟩ := ih t (p.drop s.direction.size)
      exact ⟨hemit.reported.trans hreported, hremembered⟩
    · next t x heq =>
      rw [heq] at hemit
      exact hemit

/-- The work of a `write` is a loop over whole groups, whatever the stream carries. -/
theorem absorb_is_emitGroups (s : Stream) (p : List Byte) :
    ∃ k q, s.absorb p = { s with carry := [] }.emitGroups k q := by
  by_cases hc : s.carry = []
  · exact ⟨p.length / s.direction.size, p, by rw [← hc, Stream.absorb, if_pos hc]⟩
  · simp only [Stream.absorb, if_neg hc]
    generalize min (s.direction.size - s.carry.length) p.length = taken
    split
    · next hsize =>
      refine ⟨(p.drop taken).length / s.direction.size + 1, s.carry ++ p.take taken ++ p.drop taken, ?_⟩
      rw [Stream.emitGroups]
      simp only [List.take_left' hsize, List.drop_left' hsize]
    · exact ⟨0, s.carry ++ p.take taken, rfl⟩

theorem write_reports (s : Stream) (p : List Byte) : Reports s.sink ((s.write p).1, (s.write p).2.error) := by
  cases hs : s.status with
  | error e =>
    rw [write_of_error p hs]
    exact ⟨putsReport_refl .., fun x hx => hs.trans (congrArg Status.error (Option.some.inj hx))⟩
  | opened =>
    cases hc : s.closed with
    | true =>
      rw [write_of_closed p hs hc]
      exact ⟨putsReport_refl .., nofun⟩
    | false =>
      obtain ⟨k, q, habsorb⟩ := absorb_is_emitGroups s p
      rw [write_of_open s p hs hc, habsorb]
      exact emitGroups_reports { s with carry := [] } k q

theorem flush_reports (s : Stream) : Reports s.sink s.flush := by
  simp only [Stream.flush]
  split
  · exact ⟨putsReport_refl .., nofun⟩
  · exact emit_reports { s with carry := [] } ..

theorem close_reports (s : Stream) : Reports s.sink s.close := by
  cases hs : s.status with
  | error e =>
    rw [close_of_error hs]
    exact ⟨putsReport_refl .., fun x hx => hs.trans (congrArg Status.error (Option.some.inj hx))⟩
  | opened =>
    cases hc : s.closed with
    | true =>
      rw [close_of_closed hs hc]
      exact ⟨putsReport_refl .., nofun⟩
    | false =>
      rw [close_of_open hs hc]
      split
      · exact ⟨putsReport_refl .., nofun⟩
      · exact flush_reports { s with closed := true }

theorem call_reports (s : Stream) (c : Call) : Reports s.sink (s.call c, s.callError c) := by
  cases c with
  | write p => exact write_reports s p
  | close => exact close_reports s

/-- One group whose output is put into a sink that fails next. -/
theorem emit_of_failing {s : Stream} {g : List Byte} {keep e kept : Nat} {rest : List SinkAnswer}
    (ha : s.sink.answers = .fail e kept :: rest)
    (hr : s.direction.rejects s.strict (z85ct (s.direction.request g)) = false) (hkeep : keep ≠ 0) :
    ∃ t, s.emit g keep = (t, some (.sink e)) ∧ t.status = .error (.sink e) ∧ t.closed = s.closed ∧
      t.sink.answers = rest := by
  simp [Stream.emit, hr, hkeep, Sink.put, ha]

/-- A `write` that completes a group, on an open stream whose sink fails next: the first group meets the failure. -/
theorem write_of_failing {s : Stream} {e kept : Nat} {rest : List SinkAnswer} (ho : s.status = .opened)
    (hc : s.closed = false) (hfits : CarryFits s) (ha : s.sink.answers = .fail e kept :: rest) (p : List Byte)
    (hp : s.direction.size ≤ (s.carry ++ p).length)
    (hr : s.direction.rejects s.strict (z85ct (s.direction.request ((s.carry ++ p).take s.direction.size))) = false) :
    (s.write p).2 = { count := rejectedWriteCount p.length, error := some (.sink e) } ∧
      (s.write p).1.status = .error (.sink e) ∧ (s.write p).1.sink.answers = rest := by
  obtain ⟨t, hemit, hstatus, -, hanswers⟩ :=
    emit_of_failing (s := { s with carry := [] }) ha hr s.direction.keep_size_ne_zero
  have habsorb : s.absorb p = (t, some (.sink e)) := by
    rw [absorb_eq_emitGroups s p hfits, length_div_of_le s.direction.size_pos hp, Stream.emitGroups, hemit]
  rw [write_of_open s p ho hc, habsorb]
  exact ⟨rfl, hstatus, hanswers⟩

/-- A `close` that has something to put, on an open stream whose sink fails next. -/
theorem close_of_failing {s : Stream} {e kept : Nat} {rest : List SinkAnswer} (ho : s.status = .opened)
    (hc : s.closed = false) (ha : s.sink.answers = .fail e kept :: rest) (h0 : s.carry ≠ [])
    (hkeep : s.direction.keep s.carry.length ≠ 0)
    (hr : s.direction.rejects s.strict
      (z85ct (s.direction.request (padded s.direction.size s.direction.pad s.carry))) = false) :
    s.close.2 = some (.sink e) ∧ s.close.1.status = .error (.sink e) ∧ s.close.1.closed = true ∧
      s.close.1.sink.answers = rest := by
  obtain ⟨t, hemit, hstatus, hclosed, hanswers⟩ :=
    emit_of_failing (s := { s with carry := [], closed := true }) ha hr hkeep
  have hclose : s.close = (t, some (.sink e)) := by
    rw [close_of_open ho hc, if_neg h0, Stream.flush]
    exact (if_neg fun h => hkeep h.1).trans hemit
  rw [hclose]
  exact ⟨rfl, hstatus, hclosed, hanswers⟩

/-- After any calls on a stream in `Error(e)` only `closed` may have changed. -/
theorem calls_of_error (cs : List Call) {s : Stream} {e : HostError} (h : s.status = .error e) :
    ∃ closed, s.calls cs = { s with closed := closed } := by
  induction cs generalizing s with
  | nil => exact ⟨s.closed, rfl⟩
  | cons c cs ih =>
    obtain ⟨-, closed, hcall⟩ := call_of_error s e h c
    rw [Stream.calls, List.foldl_cons, hcall]
    exact ih (s := { s with closed := closed }) h

end Sys2Proof.Machine
end

section
/-! The errors of a stream: a `write` after `close`, and the sticky error (42_host_framing.md, R80 and R82). -/

namespace Sys2Proof.Machine

/-- Settles O53: the checks of `closed` and of the status come before the work, and return the stream as it was. -/
theorem writeAfterCloseHasNoEffect : Obligations.WriteAfterCloseHasNoEffect := by
  intro s p hc
  exact ⟨fun ho => write_of_closed p ho hc, fun e he => write_of_error p he, fun _ => nofun⟩

/-- Settles O52: every call reports and remembers the failures of its own puts, and a stream in `Error(e)` stays in
it. -/
theorem stickyErrorIsForEver : Obligations.StickyErrorIsForEver := by
  refine ⟨fun s c => ?_, fun s e kept rest ho hc hfits ha => ⟨write_of_failing ho hc hfits ha, ?_⟩,
    fun s c => (call_reports s c).remembered, fun s e cs h => ?_⟩
  · obtain ⟨⟨puts, hreceived, hanswers, hreport⟩, hremembered⟩ := call_reports s c
    exact ⟨puts, hreceived, hanswers, fun e kept hmem =>
      ⟨hreport e kept hmem, hremembered e (hreport e kept hmem)⟩⟩
  · exact fun h0 hkeep hr => close_of_failing ho hc ha h0 (Nat.ne_of_gt hkeep) hr
  · obtain ⟨closed, hcalls⟩ := calls_of_error cs h
    rw [hcalls]
    exact ⟨closed, rfl, fun c => (call_of_error { s with closed := closed } e h c).1⟩

end Sys2Proof.Machine
end

section
/-! SUPPORT. A run of the block: one step answers the oldest request, so as many steps as there are pending requests
answer them all. -/

namespace Sys2Proof.Machine

/-- A run whose first step has a next state goes on from there. -/
theorem run_succ_of_next {M : Host.Core} {s t : M.State} (k : Nat) (h : M.step s = .next t) :
    M.run (k + 1) s = M.run k t := by
  rw [Host.Core.run, h]

/-- Each step moves the oldest request from `pending` to the end of `answered` and its response to the end of
`responses`, so the lists `answered ++ pending` and `responses ++ pending.map z85ct` are kept throughout. -/
theorem run_length_pending {ws : List ReqWord} {s : State} (h : s.pending = ws) :
    ∃ t : State, Host.Core.run core ws.length s = .next t ∧
      t.pending = [] ∧ t.answered = s.answered ++ ws ∧ t.responses = s.responses ++ ws.map z85ct := by
  induction ws generalizing s with
  | nil => exact ⟨s, rfl, h, by simp, by simp⟩
  | cons w rest ih =>
    obtain ⟨t, hrun, hpending, hanswered, hresponses⟩ :=
      ih (s := deliver (z85ct w) { s with pending := rest, answered := s.answered ++ [w] }) rfl
    have hstep := run_succ_of_next (M := core) rest.length (step_of_pending s w rest h)
    exact ⟨t, hstep.trans hrun, hpending, by simpa using hanswered, by simpa using hresponses⟩

end Sys2Proof.Machine
end

section
/-! The order of the answers (70_reset_and_hazards.md, R110). -/

namespace Sys2Proof.Machine

/-- Settles O38, by induction on the list of pending requests. -/
theorem runAnswersEveryRequestInOrder : Obligations.RunAnswersEveryRequestInOrder :=
  fun _ => run_length_pending rfl

end Sys2Proof.Machine
end

section
/-! SUPPORT. Building the Decode Table one index at a time: every write puts the Decode Table's own entry at its place,
so an entry of the table built from any list of indices is either the Decode Table's or still zero. -/

namespace Sys2Proof.Machine

/-- R25: an entry is its valid bit and its index field. -/
theorem dtab_eq_append (b : Byte) : dtab b = BitVec.ofBool (dval b) ++ didx b := by
  rw [dval_eq_mark_isSome, didx_eq_mark, dtab]
  cases dtabMarks.getD b.toNat none <;> rfl

/-- The entry that R107 writes for the symbol of index `i` is the one the Decode Table has there. -/
theorem dtab_alpha (i : Fin 85) : dtab (alpha i) = 1#1 ++ BitVec.ofNat 7 i.val := by
  have hidx : didx (alpha i) = BitVec.ofNat 7 i.val := by
    rw [← didx_alpha i, BitVec.ofNat_toNat, BitVec.setWidth_eq]
  rw [dtab_eq_append, dval_alpha, hidx]
  rfl

theorem dtab_eq_zero_of_not_dval {b : Byte} (h : dval b = false) : dtab b = 0#8 := by
  rw [dtab_eq_append, h, didx_eq_zero_of_not_dval h]
  rfl

theorem buildDtab_nil : buildDtab [] = List.replicate 256 0#8 := by
  rw [buildDtab, List.foldl_nil]

theorem buildDtab_concat (order : List (Fin 85)) (i : Fin 85) :
    buildDtab (order ++ [i]) = (buildDtab order).set (alpha i).toNat (dtab (alpha i)) := by
  rw [dtab_alpha, buildDtab, buildDtab, List.foldl_append, List.foldl_cons, List.foldl_nil]

theorem buildDtab_length (order : List (Fin 85)) : (buildDtab order).length = 256 := by
  induction order using List.reverseRecOn with
  | nil => rw [buildDtab_nil, List.length_replicate]
  | append_singleton order i ih => rw [buildDtab_concat, List.length_set, ih]

/-- The table built from some of the indices: the entries of their symbols are the Decode Table's, the others zero. -/
theorem buildDtab_getElem? (order : List (Fin 85)) (b : Byte) :
    (buildDtab order)[b.toNat]? = some (if ∃ i ∈ order, alpha i = b then dtab b else 0#8) := by
  induction order using List.reverseRecOn with
  | nil =>
    rw [buildDtab_nil, List.getElem?_replicate_of_lt b.isLt]
    simp
  | append_singleton order i ih =>
    rw [buildDtab_concat]
    by_cases hi : alpha i = b
    · subst hi
      rw [List.getElem?_set_self (by rw [buildDtab_length]; exact (alpha i).isLt), if_pos ⟨i, by simp, rfl⟩]
    · have hplace : (alpha i).toNat ≠ b.toNat := fun h => hi (BitVec.eq_of_toNat_eq h)
      rw [List.getElem?_set_ne hplace, ih]
      simp [or_and_right, exists_or, hi]

end Sys2Proof.Machine
end

section
/-! How the Decode Table comes about (70_reset_and_hazards.md, R107). -/

namespace Sys2Proof.Machine

/-- Settles O10: an order of all indices has the index of every symbol, and where no symbol stands, the entry stays zero
and the Decode Table has a dot. -/
theorem decodeTableIsBuiltFromTheAlphabet : Obligations.DecodeTableIsBuiltFromTheAlphabet := by
  intro order hperm
  refine ⟨buildDtab_length order, fun b => ?_⟩
  rw [buildDtab_getElem?]
  cases hb : dval b with
  | true =>
    obtain ⟨i, hi⟩ := (dval_eq_true_iff b).mp hb
    rw [if_pos ⟨i, hperm.mem_iff.mpr (List.mem_finRange i), hi⟩]
  | false => rw [dtab_eq_zero_of_not_dval hb, ite_self]

end Sys2Proof.Machine
end

section
/-! SUPPORT. The decoder on numbers (R40): those below 2^41 are request words, and nothing else is one. -/

namespace Sys2Proof

theorem decodeRequest_of_lt {n : Nat} (h : n < 2 ^ 41) : decodeRequest n = .ok (decode (BitVec.ofNat 41 n)) := by
  rw [decodeRequest, isRequestWord, if_pos (decide_eq_true h)]

theorem decodeRequest_of_le {n : Nat} (h : 2 ^ 41 ≤ n) : decodeRequest n = .error .notARequestWord := by
  rw [decodeRequest, isRequestWord, if_neg (by simpa using h)]

/-- A request word taken as a number decodes to what the word stands for. -/
theorem decodeRequest_toNat (w : ReqWord) : decodeRequest w.toNat = .ok (decode w) := by
  rw [decodeRequest_of_lt w.isLt, BitVec.ofNat_toNat, BitVec.setWidth_eq]

/-- A number decodes to an operation exactly where it is that operation's word (R40, R49). -/
theorem decodeRequest_eq_ok_iff (n : Nat) (i : Instr) : decodeRequest n = .ok i ↔ n = (encode i).toNat := by
  constructor
  · intro h
    by_cases hn : n < 2 ^ 41
    · rw [decodeRequest_of_lt hn] at h
      rw [← Except.ok.inj h, encode_decode, BitVec.toNat_ofNat, Nat.mod_eq_of_lt hn]
    · rw [decodeRequest_of_le (Nat.le_of_not_lt hn)] at h
      exact nomatch h
  · rintro rfl
    rw [decodeRequest_toNat, decode_encode]

theorem decodeRequest_eq_error_iff (n : Nat) : decodeRequest n = .error .notARequestWord ↔ 2 ^ 41 ≤ n := by
  constructor
  · intro h
    by_contra hn
    rw [decodeRequest_of_lt (Nat.lt_of_not_le hn)] at h
    exact nomatch h
  · exact decodeRequest_of_le

/-- The opcode table's numbering loses nothing of a request word where at least 41 bits are given. -/
theorem decodeTableWord_toNat {nbits : Nat} (h : 41 ≤ nbits) (w : ReqWord) :
    decodeTableWord nbits w.toNat = some (decode w) := by
  have hw : w.toNat < 2 ^ nbits := Nat.lt_of_lt_of_le w.isLt (Nat.pow_le_pow_right (by decide) h)
  rw [decodeTableWord, Nat.mod_eq_of_lt hw, decodeRequest_toNat]

end Sys2Proof
end

section
/-! Encoding and decoding are inverse (30_encoding.md sections 3 to 5). -/

namespace Sys2Proof.Machine

theorem wellFormed_eq_true (i : Instr) : i.wellFormed = true := by
  cases i <;> rfl

/-- Settles O4: all three decoders give what the encoded word itself decodes to. -/
theorem decodeOfEncodeIsTheOperation : Obligations.DecodeOfEncodeIsTheOperation := by
  intro i
  have h41 := decodeTableWord_toNat (nbits := 41) (by decide) (encode i)
  have h48 := decodeTableWord_toNat (nbits := 48) (by decide) (encode i)
  rw [decode_encode] at h41 h48
  exact ⟨wellFormed_eq_true i, decode_encode i, (decodeRequest_eq_ok_iff _ i).mpr rfl, h41, h48⟩

/-- Settles O5: a word is the encoding of what it decodes to, and the decoder on numbers accepts the words alone. -/
theorem everyRequestWordIsOneOperation : Obligations.EveryRequestWordIsOneOperation :=
  ⟨encode_decode, decodeRequest_eq_ok_iff, decodeRequest_eq_error_iff⟩

/-- Settles O7, by evaluation on the written-out words. -/
theorem writtenOutWordsDecode : Obligations.WrittenOutWordsDecode := by
  unfold Obligations.WrittenOutWordsDecode
  decide +kernel

end Sys2Proof.Machine
end

section
/-! The response word (30_encoding.md section 1, R42) and the address map (20_memory.md, R25 and R38). -/

namespace Sys2Proof.Machine

/-- R42: the two flags stand above the 40 bits of data. -/
theorem response_word_toNat (r : Response) :
    r.word.toNat = r.ovf.toNat * 2 ^ 41 + r.inv.toNat * 2 ^ 40 + r.dout.toNat := by
  rw [Response.word, append_toNat, append_toNat, BitVec.toNat_ofBool, BitVec.toNat_ofBool]
  omega

/-- A request with bit 40 clear is answered by `ENC`. -/
theorem z85ct_of_reqOp_false {w : ReqWord} (h : reqOp w = false) :
    ∃ pad b0 b1 b2 b3, z85ct w = encResponse pad b0 b1 b2 b3 :=
  ⟨_, _, _, _, _, by rw [z85ct, decode_of_reqOp_false h, respond_enc]⟩

/-- A request with bit 40 set is answered by `DEC`. -/
theorem z85ct_of_reqOp_true {w : ReqWord} (h : reqOp w = true) :
    ∃ c0 c1 c2 c3 c4, z85ct w = decResponse c0 c1 c2 c3 c4 :=
  ⟨_, _, _, _, _, by rw [z85ct, decode_of_reqOp_true h, respond_dec]⟩

/-- Settles O3: the word is its concatenated fields, the flags of `ENC` are constants, and `DEC` packs `0x00` first. -/
theorem responseWordIsFlagsAndFiveLanes : Obligations.ResponseWordIsFlagsAndFiveLanes := by
  refine ⟨fun r => ⟨response_word_toNat r, toNat_eq_lanes r.dout⟩, fun w => ⟨fun h => ?_, fun h => ?_⟩⟩
  · obtain ⟨pad, b0, b1, b2, b3, hw⟩ := z85ct_of_reqOp_false h
    rw [hw]
    exact ⟨encResponse_inv .., encResponse_ovf ..⟩
  · obtain ⟨c0, c1, c2, c3, c4, hw⟩ := z85ct_of_reqOp_true h
    rw [hw, decResponse_dout, lane_packResult_0]

theorem memRead_alpha_of_lt {a : Nat} (h : a < 85) : memRead .alpha a = some (alpha ⟨a, h⟩) := dif_pos h

theorem memRead_alpha_isSome_iff (a : Nat) : (memRead .alpha a).isSome = true ↔ a < 85 := by
  by_cases h : a < 85 <;> simp [memRead, h]

theorem memRead_dtab_isSome_iff (a : Nat) : (memRead .dtab a).isSome = true ↔ a < 256 := by
  by_cases h : a < 256 <;> simp [memRead, h]

theorem memRead_dtab_toNat (b : Byte) : memRead .dtab b.toNat = some (dtab b) := by
  rw [memRead, if_pos b.isLt, BitVec.ofNat_toNat, BitVec.setWidth_eq]

/-- Settles O11: within its range each address space reads its table, and an entry of the Decode Table is its two
fields. -/
theorem addressMapIsTheTwoTables : Obligations.AddressMapIsTheTwoTables := by
  refine ⟨memRead_alpha_isSome_iff, memRead_dtab_isSome_iff, fun i => memRead_alpha_of_lt i.isLt,
    fun b => ⟨?_, didx_lt b⟩⟩
  rw [memRead_dtab_toNat, dtab_eq_append]

end Sys2Proof.Machine
end

section
/-! SUPPORT. The symbols of an `ENC` response, and the raw chunk as the four base-256 digits of its value. -/

namespace Sys2Proof.Machine

@[simp] theorem encResponse_symbols (pad b0 b1 b2 b3 : Byte) :
    (encResponse pad b0 b1 b2 b3).symbols =
      [encSymbol (rawValue b0 b1 b2 b3) 0, encSymbol (rawValue b0 b1 b2 b3) 1, encSymbol (rawValue b0 b1 b2 b3) 2,
        encSymbol (rawValue b0 b1 b2 b3) 3, encSymbol (rawValue b0 b1 b2 b3) 4] := by
  rw [Response.symbols, encResponse_dout, lane_packLanes_0, lane_packLanes_1, lane_packLanes_2, lane_packLanes_3,
    lane_packLanes_4]

/-- R29: a raw chunk is determined by its value. -/
theorem rawValue_injective {b0 b1 b2 b3 b0' b1' b2' b3' : Byte} (h : rawValue b0 b1 b2 b3 = rawValue b0' b1' b2' b3') :
    b0 = b0' ∧ b1 = b1' ∧ b2 = b2' ∧ b3 = b3' := by
  unfold rawValue at h
  simp only [← BitVec.toNat_inj]
  omega

/-- The bytes of a 32-bit value are a raw chunk of that value (R29). -/
theorem rawValue_extract (w : Word32) :
    rawValue (w.extractLsb' 24 8) (w.extractLsb' 16 8) (w.extractLsb' 8 8) (w.extractLsb' 0 8) = w.toNat := by
  have hw := w.isLt
  simp only [rawValue, BitVec.extractLsb'_toNat, Nat.shiftRight_eq_div_pow]
  omega

theorem exists_rawValue_eq {v : Nat} (h : v < 2 ^ 32) : ∃ b0 b1 b2 b3, rawValue b0 b1 b2 b3 = v :=
  ⟨_, _, _, _, by rw [rawValue_extract (BitVec.ofNat 32 v), BitVec.toNat_ofNat, Nat.mod_eq_of_lt h]⟩

/-- Five symbols of two 32-bit values agree only where the values do (R59). -/
theorem eq_of_encSymbol_eq {v v' : Nat} (hv : v < 2 ^ 32) (hv' : v' < 2 ^ 32)
    (h : ∀ i, encSymbol v i = encSymbol v' i) : v = v' := by
  have hdigits (i : Fin 5) : encDigit v i = encDigit v' i := alpha_injective (h i)
  rw [← digitsValue_encDigit hv, ← digitsValue_encDigit hv']
  simp only [hdigits]

end Sys2Proof.Machine
end

section
/-! The digits of `ENC` (40_encode_chunk.md, R56 to R59). -/

namespace Sys2Proof.Machine

/-- Settles O14: the quotient after `k` rounds is `v / 85^k`, which after five is 0. -/
theorem encLoopComputesTheClosedForm : Obligations.EncLoopComputesTheClosedForm := by
  intro v hv
  obtain ⟨h0, h1, h2, h3, h4⟩ := encDigit_val v
  have hquotient : v / 4437053125 = 0 := Nat.div_eq_of_lt (Nat.lt_trans hv (by decide))
  simp [encLoop, Config.radix, Nat.div_div_eq_div_mul, h0, h1, h2, h3, h4, hquotient]

/-- Settles O15: the first quotient is at most `(2^32 - 1) / 85^4 = 82`, and there 14516045 is what is left of
`2^32 - 1`. -/
theorem encDigitRanges : Obligations.EncDigitRanges := by
  intro v hv
  obtain ⟨h0, h1, h2, h3, h4⟩ := encDigit_val v
  have hpow : (85 : Nat) ^ 4 = 52200625 := by decide
  rw [hpow, h0, h1, h2, h3, h4]
  refine ⟨?_, ?_, ?_, fun h => ?_⟩ <;> omega

/-- Two values compare as the first digits in which they differ. -/
theorem encDigit_lt_of_first_ne {v v' : Nat} (h : v < v') (hv' : v' < 2 ^ 32) {k : Fin 5}
    (heq : ∀ i, i < k → encDigit v i = encDigit v' i) (hne : encDigit v k ≠ encDigit v' k) :
    encDigit v k < encDigit v' k := by
  have hsum := digitsValue_encDigit (Nat.lt_trans h hv')
  have hsum' := digitsValue_encDigit hv'
  rw [digitsValue_eq] at hsum hsum'
  rw [← Fin.val_ne_iff] at hne
  rw [Fin.lt_def]
  match k with
  | 0 => omega
  | 1 => have := heq 0 (by decide); omega
  | 2 => have := heq 0 (by decide); have := heq 1 (by decide); omega
  | 3 => have := heq 0 (by decide); have := heq 1 (by decide); have := heq 2 (by decide); omega
  | 4 =>
    have := heq 0 (by decide); have := heq 1 (by decide); have := heq 2 (by decide); have := heq 3 (by decide)
    omega

/-- Settles O16: different values differ in some digit, and the first such digit decides. -/
theorem encPreservesOrder : Obligations.EncPreservesOrder := by
  intro v v' h hv'
  have hdiffer : ∃ k, encDigit v k ≠ encDigit v' k := by
    by_contra hall
    simp only [not_exists, not_not] at hall
    exact Nat.ne_of_lt h (eq_of_encSymbol_eq (Nat.lt_trans h hv') hv' fun i => congrArg alpha (hall i))
  obtain ⟨k, hk⟩ := exists_minimal_of_wellFoundedLT _ hdiffer
  have heq (i : Fin 5) (hi : i < k) : encDigit v i = encDigit v' i := not_not.mp (hk.not_prop_of_lt hi)
  exact ⟨k, heq, encDigit_lt_of_first_ne h hv' heq hk.prop⟩

/-- Settles O17: the symbols give the digits, the digits the value and the value the bytes; and every value below 2^32
is that of some chunk. -/
theorem encIsInjectiveWithImageBelow2Pow32 : Obligations.EncIsInjectiveWithImageBelow2Pow32 := by
  simp only [Obligations.EncIsInjectiveWithImageBelow2Pow32, z85ct_encode, respond_enc]
  refine ⟨fun b0 b1 b2 b3 b0' b1' b2' b3' pad pad' h => ?_, fun c0 c1 c2 c3 c4 => ⟨?_, ?_⟩⟩
  · have hsymbols : (encResponse pad b0 b1 b2 b3).symbols = (encResponse pad' b0' b1' b2' b3').symbols := by
      rw [Response.symbols, h, Response.symbols]
    refine rawValue_injective (eq_of_encSymbol_eq (rawValue_lt ..) (rawValue_lt ..) ?_)
    simpa [Fin.forall_fin_succ] using hsymbols
  · rintro ⟨b0, b1, b2, b3, h⟩
    refine ⟨_, _, _, _, _, by rw [← h, encResponse_symbols]; rfl, ?_⟩
    have hsum := digitsValue_encDigit (rawValue_lt b0 b1 b2 b3)
    have hlt := rawValue_lt b0 b1 b2 b3
    rw [digitsValue_eq] at hsum
    omega
  · rintro ⟨d0, d1, d2, d3, d4, h, hlt⟩
    have hvalue : digitsValue (fun i => (![d0, d1, d2, d3, d4] i).val) < 2 ^ 32 := by
      simpa [digitsValue_eq] using hlt
    obtain ⟨b0, b1, b2, b3, hraw⟩ := exists_rawValue_eq hvalue
    refine ⟨b0, b1, b2, b3, ?_⟩
    rw [encResponse_symbols, hraw, h]
    simp only [encSymbol, encDigit_digitsValue]
    rfl

end Sys2Proof.Machine
end

section
/-! SUPPORT. The value of a `DEC` operand and the symbols of `ENC` undo each other, on values below 2^32 and on operands
of symbols. -/

namespace Sys2Proof.Machine

/-- R64 from the value: decoding the five symbols of `v` gives `v`. -/
theorem decValue_encSymbol {v : Nat} (h : v < 2 ^ 32) :
    decValue (encSymbol v 0) (encSymbol v 1) (encSymbol v 2) (encSymbol v 3) (encSymbol v 4) = v := by
  rw [decValue_eq_digitsValue (encSymbol v)]
  simp only [encSymbol, didx_alpha, digitsValue_encDigit h]

/-- R64 from the symbols: the five symbols of the decoded value are the operand. -/
theorem encSymbol_decValue {c : Fin 5 → Byte} (h : ∀ i, dval (c i) = true) (i : Fin 5) :
    encSymbol (decValue (c 0) (c 1) (c 2) (c 3) (c 4)) i = c i := by
  have hdigits := encDigit_digitsValue (fun j => ⟨(didx (c j)).toNat, didx_lt (c j)⟩) i
  rw [decValue_eq_digitsValue, encSymbol, hdigits, alpha_didx (h i)]

theorem invFlag_eq_false_iff (c : Fin 5 → Byte) :
    invFlag (c 0) (c 1) (c 2) (c 3) (c 4) = false ↔ ∀ i, dval (c i) = true := by
  simp [invFlag, Fin.forall_fin_succ, and_assoc]

@[simp] theorem invFlag_encSymbol (v : Nat) :
    invFlag (encSymbol v 0) (encSymbol v 1) (encSymbol v 2) (encSymbol v 3) (encSymbol v 4) = false :=
  (invFlag_eq_false_iff (encSymbol v)).mpr fun _ => dval_alpha _

@[simp] theorem ovfFlag_eq_false_iff (v : Nat) : ovfFlag v = false ↔ v < 2 ^ 32 := by
  rw [ovfFlag, decide_eq_false_iff_not, Nat.not_le]

/-- The request with `op` 0 and the data of a `DEC` response is that of `ENC` on the response's bytes. -/
theorem z85ct_requestWord_false_packResult (w : Word32) :
    z85ct (requestWord false (packResult w)) =
      encResponse 0x00#8 (w.extractLsb' 24 8) (w.extractLsb' 16 8) (w.extractLsb' 8 8) (w.extractLsb' 0 8) :=
  z85ct_encode (.enc 0x00#8 (w.extractLsb' 24 8) (w.extractLsb' 16 8) (w.extractLsb' 8 8) (w.extractLsb' 0 8))

/-- `ENC` of the data of a `DEC` response delivers the symbols of that data's value. -/
theorem dout_enc_packResult (w : Word32) :
    (z85ct (requestWord false (packResult w))).dout =
      packLanes (encSymbol w.toNat 0) (encSymbol w.toNat 1) (encSymbol w.toNat 2) (encSymbol w.toNat 3)
        (encSymbol w.toNat 4) := by
  rw [z85ct_requestWord_false_packResult, encResponse_dout, rawValue_extract]

theorem packLanes_inj {a b c d e a' b' c' d' e' : Byte} (h : packLanes a b c d e = packLanes a' b' c' d' e') :
    a = a' ∧ b = b' ∧ c = c' ∧ d = d' ∧ e = e' := by
  refine ⟨?_, ?_, ?_, ?_, ?_⟩
  · rw [← lane_packLanes_0 a b c d e, h, lane_packLanes_0]
  · rw [← lane_packLanes_1 a b c d e, h, lane_packLanes_1]
  · rw [← lane_packLanes_2 a b c d e, h, lane_packLanes_2]
  · rw [← lane_packLanes_3 a b c d e, h, lane_packLanes_3]
  · rw [← lane_packLanes_4 a b c d e, h, lane_packLanes_4]

/-- A chunk stands in the result lanes as the value it is (R47). -/
theorem packResult_ofNat_rawValue (b0 b1 b2 b3 : Byte) :
    packResult (BitVec.ofNat 32 (rawValue b0 b1 b2 b3)) = packLanes 0x00#8 b0 b1 b2 b3 := by
  apply BitVec.eq_of_toNat_eq
  rw [packResult_toNat, packLanes_toNat, BitVec.toNat_ofNat, Nat.mod_eq_of_lt (rawValue_lt ..), rawValue,
    BitVec.toNat_ofNat]
  omega

end Sys2Proof.Machine
end

section
/-! `ENC` and `DEC` on chunks (41_decode_chunk.md, R62 to R67). -/

namespace Sys2Proof.Machine

/-- R64, `DEC` after `ENC`. -/
theorem dec_of_enc (pad b0 b1 b2 b3 : Byte) :
    z85ct (requestWord true (encResponse pad b0 b1 b2 b3).dout) =
      { dout := packLanes 0x00#8 b0 b1 b2 b3, inv := false, ovf := false } := by
  have hlt := rawValue_lt b0 b1 b2 b3
  have hdata : decData Config.decOvf (rawValue b0 b1 b2 b3) = BitVec.ofNat 32 (rawValue b0 b1 b2 b3) := if_pos hlt
  rw [encResponse_dout, packLanes, z85ct_requestWord_true, decResponse, decResponseWith]
  simp only [decValue_encSymbol hlt, invFlag_encSymbol, hdata, packResult_ofNat_rawValue,
    (ovfFlag_eq_false_iff _).mpr hlt]

/-- R64, `ENC` after `DEC`: the symbols of any 32-bit value are symbols and decode to it, so they are the operand only
where no flag is set. -/
theorem enc_of_dec_iff (c : Fin 5 → Byte) :
    (z85ct (requestWord false (decResponse (c 0) (c 1) (c 2) (c 3) (c 4)).dout)).dout =
        packLanes (c 0) (c 1) (c 2) (c 3) (c 4) ↔
      (∀ i, dval (c i) = true) ∧ decValue (c 0) (c 1) (c 2) (c 3) (c 4) < 2 ^ 32 := by
  rw [decResponse_dout, dout_enc_packResult]
  constructor
  · intro h
    generalize decData Config.decOvf (decValue (c 0) (c 1) (c 2) (c 3) (c 4)) = w at h
    obtain ⟨h0, h1, h2, h3, h4⟩ := packLanes_inj h
    rw [← h0, ← h1, ← h2, ← h3, ← h4, decValue_encSymbol w.isLt]
    refine ⟨fun i => ?_, w.isLt⟩
    have hi : encSymbol w.toNat i = c i := by
      match i with
      | 0 => exact h0
      | 1 => exact h1
      | 2 => exact h2
      | 3 => exact h3
      | 4 => exact h4
    rw [← hi]
    exact dval_alpha _
  · rintro ⟨hval, hlt⟩
    rw [decData_toNat_of_lt _ _ hlt]
    simp only [encSymbol_decValue hval]

/-- Settles O26: both directions with the data written as `packLanes`, and the flags as what they say of the operand. -/
theorem chunkRoundTrip : Obligations.ChunkRoundTrip := by
  simp only [Obligations.ChunkRoundTrip, z85ct_encode, respond_enc, respond_dec]
  refine ⟨dec_of_enc, fun c0 c1 c2 c3 c4 => ?_⟩
  have hiff := enc_of_dec_iff ![c0, c1, c2, c3, c4]
  rw [← invFlag_eq_false_iff, ← ovfFlag_eq_false_iff] at hiff
  exact hiff

end Sys2Proof.Machine
end

section
/-! SUPPORT. The range of a `DEC` value, and how far a change of the trailing digits moves it. -/

namespace Sys2Proof.Machine

theorem decDigit_lt (c0 c1 c2 c3 c4 : Byte) (i : Fin 5) : decDigit c0 c1 c2 c3 c4 i < 85 := didx_lt _

theorem weight_le (i : Fin 5) : weight i ≤ 52200625 := by
  revert i; decide

/-- R62: five digits of 84 are the largest value. -/
theorem decValue_le (c0 c1 c2 c3 c4 : Byte) : decValue c0 c1 c2 c3 c4 ≤ 4437053124 := by
  have h0 := didx_lt c0; have h1 := didx_lt c1; have h2 := didx_lt c2; have h3 := didx_lt c3; have h4 := didx_lt c4
  rw [decValue_eq]
  omega

/-- R67's reason: digits that agree in front and do not decrease in the last `j` places raise the value by at most
`84 * (85^(j-1) + ... + 1)`. -/
theorem digitsValue_tail {d d' : Fin 5 → Nat} {j : Nat} (hj : j ≤ 4) (heq : ∀ i : Fin 5, i.val < 5 - j → d i = d' i)
    (hle : ∀ i, d i ≤ d' i) (hlt : ∀ i, d' i < 85) :
    digitsValue d ≤ digitsValue d' ∧ digitsValue d' ≤ digitsValue d + (85 ^ j - 1) := by
  have h0 := heq 0; have h1 := heq 1; have h2 := heq 2; have h3 := heq 3; have h4 := heq 4
  have l0 := hle 0; have l1 := hle 1; have l2 := hle 2; have l3 := hle 3; have l4 := hle 4
  have u0 := hlt 0; have u1 := hlt 1; have u2 := hlt 2; have u3 := hlt 3; have u4 := hlt 4
  simp only [Fin.coe_ofNat_eq_mod, Nat.reduceMod] at h0 h1 h2 h3 h4
  rw [digitsValue_eq, digitsValue_eq]
  interval_cases j <;> omega

/-- `#` is the last symbol of the Alphabet. -/
theorem didx_le_didx_hash (b : Byte) : (didx b).toNat ≤ (didx 0x23#8).toNat := by
  have hhash : (didx 0x23#8).toNat = 84 := by decide +kernel
  rw [hhash]
  exact Nat.le_of_lt_succ (didx_lt b)

/-- `0` is the first symbol of the Alphabet. -/
theorem didx_zero_le_didx (b : Byte) : (didx 0x30#8).toNat ≤ (didx b).toNat := by
  have hzero : (didx 0x30#8).toNat = 0 := by decide +kernel
  rw [hzero]
  exact Nat.zero_le _

end Sys2Proof.Machine
end

section
/-! SUPPORT. Horner's form (R65) on any digits. -/

namespace Sys2Proof.Machine

/-- Reducing after every step or once at the end gives the same (R63). -/
theorem hornerWrapFrom_mod (t : Nat) (xs : List Nat) :
    hornerWrapFrom (t % 2 ^ 32) xs = hornerFrom t xs % 2 ^ 32 := by
  induction xs generalizing t with
  | nil => rfl
  | cons x xs ih =>
    have hstep : (t % 2 ^ 32 * Config.radix + x) % 2 ^ 32 = (t * Config.radix + x) % 2 ^ 32 := by
      rw [Nat.add_mod, Nat.mod_mul_mod, ← Nat.add_mod]
    rw [hornerWrapFrom, List.foldl_cons, hstep]
    exact ih _

theorem hornerFrom_decDigits (c0 c1 c2 c3 c4 : Byte) :
    hornerFrom 0 (decDigits c0 c1 c2 c3 c4) = decValue c0 c1 c2 c3 c4 := by
  simp only [hornerFrom, decDigits, List.foldl_cons, List.foldl_nil, decValue, digitsValue_eq, Config.radix]
  omega

end Sys2Proof.Machine
end

section
/-! The value of a `DEC` operand (41_decode_chunk.md, R62 to R67). -/

namespace Sys2Proof.Machine

/-- Settles O23: every digit is at most 84, and `#####` attains the bound. -/
theorem decValueFits33Bits : Obligations.DecValueFits33Bits := by
  refine ⟨fun c0 c1 c2 c3 c4 => ?_, 0x23#8, 0x23#8, 0x23#8, 0x23#8, 0x23#8, by decide +kernel⟩
  have hvalue := decValue_le c0 c1 c2 c3 c4
  refine ⟨hvalue, hvalue, Nat.lt_of_le_of_lt hvalue (by decide), fun i => ?_⟩
  exact Nat.mul_le_mul (Nat.le_of_lt_succ (decDigit_lt ..)) (weight_le i)

/-- Settles O24: the function is `DEC_OVF` itself, and a value below 2^33 has one 2^32 to lose. -/
theorem overflowDataIsAFunctionOfTheValue : Obligations.OverflowDataIsAFunctionOfTheValue := by
  refine ⟨Config.decOvf, fun c0 c1 c2 c3 c4 h => ?_⟩
  have hvalue := decValue_le c0 c1 c2 c3 c4
  rw [z85ct_encode, respond_dec]
  refine ⟨(ovfFlag_eq_true_iff _).mpr h, ?_, rfl, ?_⟩
  · rw [decResponse_dout, packResult_toNat, decData_of_le _ _ h]
  · rw [Config.decOvfDefault, BitVec.toNat_ofNat]
    omega

/-- Settles O25: the wrapping form started at 0 is the other one reduced at the end. -/
theorem hornerFormEqualsTheSum : Obligations.HornerFormEqualsTheSum := by
  intro c0 c1 c2 c3 c4
  have hwrap := hornerWrapFrom_mod 0 (decDigits c0 c1 c2 c3 c4)
  rw [hornerFrom_decDigits] at hwrap
  exact ⟨hornerFrom_decDigits c0 c1 c2 c3 c4, hwrap⟩

/-- Settles O27: `#` has the largest digit and `0` the smallest, so each replacement moves the digits one way. -/
theorem decIsMonotoneInTheTail : Obligations.DecIsMonotoneInTheTail := by
  intro c j _ _ hj tail val
  have hval (c : Fin 5 → Byte) : val c = digitsValue (fun i => (didx (c i)).toNat) := decValue_eq_digitsValue c
  have hfront (b : Byte) (i : Fin 5) (hi : i.val < 5 - j) : tail b i = c i := if_pos hi
  have hhash := digitsValue_tail (d := fun i => (didx (c i)).toNat) (d' := fun i => (didx (tail 0x23#8 i)).toNat) hj
    (fun i hi => by rw [hfront _ i hi])
    (fun i => by
      simp only [tail]
      split
      · exact Nat.le_refl _
      · exact didx_le_didx_hash _)
    (fun i => didx_lt _)
  have hzero := digitsValue_tail (d := fun i => (didx (tail 0x30#8 i)).toNat) (d' := fun i => (didx (c i)).toNat) hj
    (fun i hi => by rw [hfront _ i hi])
    (fun i => by
      simp only [tail]
      split
      · exact Nat.le_refl _
      · exact didx_zero_le_didx _)
    (fun i => didx_lt _)
  rw [hval, hval, hval]
  exact ⟨hhash.1, hhash.2, hzero.1, hzero.2⟩

end Sys2Proof.Machine
end

section
/-! SUPPORT. The fields after a step, the word that `withFetchWord` places, and what keeps the pairing of requests and
responses (R110). -/

namespace Sys2Proof.Machine

@[simp] theorem outputs_deliver (r : Response) (s : State) : outputs (deliver r s) = r.word := rfl

theorem readResponse_deliver_of_lt (r : Response) (s : State) {k : Nat} (h : k < s.responses.length) :
    readResponse (deliver r s) k = readResponse s k :=
  List.getElem?_append_left h

theorem readResponse_deliver_last (r : Response) (s : State) :
    readResponse (deliver r s) s.responses.length = some r :=
  List.getElem?_concat_length

/-- The number of a request word given in 41 bits places that word (log 7). -/
theorem withFetchWord_toNat (s : State) (w : ReqWord) : s.withFetchWord 41 w.toNat = placeNext w s := by
  rw [State.withFetchWord, Nat.mod_eq_of_lt w.isLt, BitVec.ofNat_toNat, BitVec.setWidth_eq]

theorem step_eq_exec_of_pending {s : State} {w : ReqWord} {rest : List ReqWord} (h : s.pending = w :: rest) :
    step s = exec (decode w) { s with pending := rest, answered := s.answered ++ [w] } := by
  rw [step, fetch_cons s w rest h]

theorem paired_deliver {s : State} (h : Paired s) (w : ReqWord) (rest : List ReqWord) :
    Paired (deliver (z85ct w) { s with pending := rest, answered := s.answered ++ [w] }) := by
  constructor
  · rw [deliver_responses, deliver_answered, List.map_append, h.1]
    rfl
  · rintro _ ⟨⟩
    exact List.getLast?_concat

/-- Where nobody's response stands on the outputs, only the two histories have to agree. -/
theorem paired_of_no_outputs {s : State} (hresponses : s.responses = s.answered.map z85ct) (h : s.onOutputs = none) :
    Paired s :=
  ⟨hresponses, fun _ hr => nomatch h.symm.trans hr⟩

theorem paired_step {s t : State} (h : Paired s) (hstep : step s = .next t) : Paired t := by
  rcases step_cases s t hstep with ⟨-, rfl⟩ | ⟨w, rest, -, rfl⟩
  · exact paired_of_no_outputs h.1 rfl
  · exact paired_deliver h w rest

theorem paired_apply {s : State} (h : Paired s) (e : HostInput) : Paired (e.apply s) := by
  cases e with
  | present w => exact h
  | reset => exact paired_of_no_outputs h.1 rfl

/-- Requests presented to a block that waits are answered in as many steps, and these are the responses. -/
theorem run_presentAll {s : State} (h : s.pending = []) (ws : List ReqWord) :
    ∃ t : State, Host.Core.run core ws.length (presentAll ws s) = .next t ∧
      t.pending = [] ∧ t.responses = s.responses ++ ws.map z85ct := by
  have hpending : (presentAll ws s).pending = ws := by rw [presentAll_pending, h, List.nil_append]
  obtain ⟨t, hrun, ht, -, hresponses⟩ := run_length_pending hpending
  exact ⟨t, hrun, ht, hresponses⟩

end Sys2Proof.Machine
end

section
/-! Steps, resets and the pairing of requests and responses (10_state.md, 60_exceptions.md, 70_reset_and_hazards.md). -/

namespace Sys2Proof.Machine

/-- Settles O28: an operation delivers one response and does nothing else. -/
theorem operationsChangeOnlyTheResponse : Obligations.OperationsChangeOnlyTheResponse := by
  intro i s t h
  obtain rfl := eq_deliver_of_exec_next h
  exact ⟨rfl, rfl, rfl, fun k hk => readResponse_deliver_of_lt _ s hk, List.length_append,
    (readResponse_deliver_last _ s).symm⟩

/-- Settles O29: the word placed is the encoded instruction, and it stands before all that wait. -/
theorem stepRunsTheDecodedRequest : Obligations.StepRunsTheDecodedRequest := by
  refine ⟨fun s w rest h => step_eq_exec_of_pending h, fun s i => ?_⟩
  rw [withFetchWord_toNat, step_eq_exec_of_pending (placeNext_pending (encode i) s), decode_encode]
  rfl

/-- Settles O30: the next state is that of `idle`. -/
theorem idleStepAnswersNothing : Obligations.IdleStepAnswersNothing :=
  fun s h => ⟨idle s, step_of_no_request s h, h, rfl, rfl, rfl⟩

/-- Settles O31: an operation delivers, and a step delivers or idles. -/
theorem nothingFaults : Obligations.NothingFaults := by
  refine ⟨fun i s => ⟨_, exec_eq_deliver i s⟩, fun s => ?_⟩
  cases h : s.pending with
  | nil => exact ⟨_, step_of_no_request s h⟩
  | cons w rest => exact ⟨_, step_of_pending s w rest h⟩

/-- Settles O32: the first step after reset delivers the response of the request presented into empty histories. -/
theorem resetHoldsNoRequest : Obligations.ResetHoldsNoRequest :=
  ⟨rfl, rfl, fun _ => rfl, fun w => ⟨_, step_of_pending (present w State.reset) w [] rfl, rfl, rfl⟩⟩

/-- Settles O33: with and without the reset the step answers `w`, and a reset leaves the histories alone. -/
theorem resetDropsUnansweredRequests : Obligations.ResetDropsUnansweredRequests :=
  fun s w rest h => ⟨rfl, rfl, rfl, rfl, _, _, step_of_pending s w rest h,
    step_of_pending (present w (applyReset s)) w [] rfl, rfl, rfl, rfl⟩

/-- Settles O34: both steps deliver `z85ct w`. -/
theorem responseDependsOnTheRequestAlone : Obligations.ResponseDependsOnTheRequestAlone :=
  fun s s' w rest rest' h h' => ⟨_, _, z85ct w, step_of_pending s w rest h, step_of_pending s' w rest' h', rfl, rfl,
    outputs_deliver .., outputs_deliver ..⟩

/-- Settles O35: both histories are empty. -/
theorem pairedAtReset : Obligations.PairedAtReset := paired_of_no_outputs rfl rfl

/-- Settles O36: an idle step takes the response off the outputs, any other one extends both histories by a pair. -/
theorem stepKeepsPaired : Obligations.StepKeepsPaired := fun _ _ => paired_step

/-- Settles O37, by induction on the host's inputs. -/
theorem hostInputsKeepPaired : Obligations.HostInputsKeepPaired := by
  intro s es h
  induction es generalizing s with
  | nil => exact h
  | cons e es ih => exact ih (e.apply s) (paired_apply h e)

/-- Settles O39: the responses are a map of the requests, and a map keeps permutations. -/
theorem orderOfRequestsDoesNotMatter : Obligations.OrderOfRequestsDoesNotMatter := by
  intro s ws ws' h hperm
  obtain ⟨t, hrun, -, hresponses⟩ := run_presentAll h ws
  obtain ⟨t', hrun', -, hresponses'⟩ := run_presentAll h ws'
  refine ⟨t, t', _, _, hrun, hrun', hresponses, hresponses', List.length_map .., List.length_map .., ?_⟩
  rw [← List.map_prod_left_eq_zip, ← List.map_prod_left_eq_zip]
  exact hperm.map _

end Sys2Proof.Machine
end

section
/-! SUPPORT. Induction over the groups of a sequence, and the bulk procedures on a sequence that begins with whole
groups. -/

namespace Sys2Proof.Machine

/-- Every sequence is empty, or shorter than a group, or a whole group and a sequence. -/
theorem groups_induction {size : Nat} (h0 : 0 < size) {P : List Byte → Prop} (nil : P [])
    (last : ∀ s, s ≠ [] → s.length < size → P s) (whole : ∀ s, size ≤ s.length → P (s.drop size) → P s)
    (s : List Byte) : P s := by
  induction hn : s.length using Nat.strongRecOn generalizing s with
  | _ n ih =>
    subst hn
    by_cases hs : s = []
    · exact hs ▸ nil
    · by_cases hlt : s.length < size
      · exact last s hs hlt
      · refine whole s (Nat.le_of_not_lt hlt) (ih _ ?_ _ rfl)
        have hpos := List.length_pos_iff.mpr hs
        rw [List.length_drop]
        omega

/-- Whole groups in front are treated on their own. -/
theorem byGroups_append {α : Type} {size : Nat} (h0 : 0 < size) (whole last : List Byte → List α) (s rest : List Byte)
    (h : size ∣ s.length) :
    byGroups size whole last (s ++ rest) = byGroups size whole last s ++ byGroups size whole last rest := by
  induction s using groups_induction h0 with
  | nil => rw [byGroups_nil, List.nil_append, List.nil_append]
  | last s hs hlt => exact absurd (Nat.le_of_dvd (List.length_pos_iff.mpr hs) h) (Nat.not_le.mpr hlt)
  | whole s hle ih =>
    have hle' : size ≤ (s ++ rest).length := by rw [List.length_append]; omega
    rw [byGroups_of_le _ _ h0 hle', byGroups_of_le _ _ h0 hle, List.take_append_of_le_length hle,
      List.drop_append_of_le_length hle, ih (by rw [List.length_drop]; exact Nat.dvd_sub h (Nat.dvd_refl _)),
      List.append_assoc]

theorem padded_of_length_eq {size : Nat} {pad : Byte} {p : List Byte} (h : p.length = size) :
    padded size pad p = p := by
  rw [padded, h, Nat.sub_self, List.replicate_zero, List.append_nil]

theorem Direction.bulk_append (d : Direction) {s : List Byte} (h : d.size ∣ s.length) (rest : List Byte) :
    d.bulk (s ++ rest) = d.bulk s ++ d.bulk rest :=
  byGroups_append d.size_pos _ _ s rest h

theorem Direction.bulkRequests_append (d : Direction) {s : List Byte} (h : d.size ∣ s.length) (rest : List Byte) :
    d.bulkRequests (s ++ rest) = d.bulkRequests s ++ d.bulkRequests rest :=
  byGroups_append d.size_pos _ _ s rest h

theorem Direction.bulk_of_length_eq (d : Direction) {g : List Byte} (h : g.length = d.size) :
    d.bulk g = d.output (z85ct (d.request g)) := by
  rw [d.bulk_of_le h.ge, List.take_of_length_le h.le, List.drop_of_length_le h.le, bulk_nil, List.append_nil]

theorem Direction.bulkRequests_of_length_eq (d : Direction) {g : List Byte} (h : g.length = d.size) :
    d.bulkRequests g = [d.request g] := by
  rw [d.bulkRequests_of_le h.ge, List.take_of_length_le h.le, List.drop_of_length_le h.le, bulkRequests_nil]

/-- The outputs of the requests made begin with the output of the bulk procedure: cutting the last group takes off the
end alone, and a skipped group keeps nothing. -/
theorem Direction.bulk_prefix (d : Direction) (s : List Byte) :
    d.bulk s <+: (d.bulkRequests s).flatMap fun w => d.output (z85ct w) := by
  induction s using groups_induction d.size_pos with
  | nil => rw [bulk_nil]; exact List.nil_prefix
  | last s hs hlt =>
    rw [d.bulk_of_lt hs hlt, d.bulkRequests_of_lt hs hlt, lastRequests, lastOutput]
    split
    · next hskip => rw [hskip.1, List.take_zero]; exact List.nil_prefix
    · rw [List.flatMap_singleton]; exact List.take_prefix ..
  | whole s hle ih =>
    rw [d.bulk_of_le hle, d.bulkRequests_of_le hle, List.flatMap_cons]
    exact (List.prefix_append_right_inj _).mpr ih

/-- R72, from the length law of both procedures. -/
theorem encodeBytes_length (b : List Byte) : (encodeBytes b).length = encodedLength b.length := by
  rw [encodeBytes_eq_bulk, Direction.bulk_length, encodedLength]
  by_cases h : b.length % 4 = 0
  · simp [Direction.size, Direction.keep, h]
  · have hkeep : 5 - (4 - b.length % 4) = b.length % 4 + 1 := by omega
    simp [Direction.size, Direction.keep, h, hkeep]

end Sys2Proof.Machine
end

section
/-! SUPPORT. The host's assembly of the responses to its requests, and what a strict host accepts (R89). -/

namespace Sys2Proof.Machine

/-- R71: the host's assembly of the responses to the requests is the bulk output. -/
theorem assembleEncoded_eq (b : List Byte) :
    assembleEncoded b.length ((encodeRequests b).map z85ct) = encodeBytes b := by
  have hprefix := Direction.encoder.bulk_prefix b
  rw [← encodeBytes_eq_bulk, ← encodeRequests_eq_bulkRequests] at hprefix
  rw [assembleEncoded, List.flatMap_map, ← encodeBytes_length]
  exact (List.prefix_iff_eq_take.mp hprefix).symm

/-- R74 likewise, whether or not the last request is made. -/
theorem assembleDecoded_eq (t : List Byte) :
    assembleDecoded t.length ((decodeRequests t).map z85ct) = decodeText t := by
  have hprefix := Direction.decoder.bulk_prefix t
  rw [← decodeText_eq_bulk, ← decodeRequests_eq_bulkRequests] at hprefix
  rw [assembleDecoded, List.flatMap_map, ← decodeText_length]
  exact (List.prefix_iff_eq_take.mp hprefix).symm

/-- R76: one symbol keeps `4 - (5 - 1)` bytes. -/
theorem decodeText_singleton (c : Byte) : decodeText [c] = [] := by
  have hlt : [c].length < Direction.decoder.size := by simp [Direction.size]
  rw [decodeText_eq_bulk, Direction.bulk_of_lt _ (List.cons_ne_nil _ _) hlt, Direction.lastOutput]
  exact List.take_zero

theorem decodeTextWith_false (t : List Byte) : decodeTextWith false t = .ok (decodeText t) := rfl

theorem decodeTextWith_of_unflagged {t : List Byte} (h : ∀ w ∈ decodeRequests t, flagged (z85ct w) = false)
    (strict : Bool) : decodeTextWith strict t = .ok (decodeText t) := by
  have hany : (decodeRequests t).any (fun w => flagged (z85ct w)) = false := by
    rw [List.any_eq_false]
    exact fun w hw => by rw [h w hw]; exact Bool.false_ne_true
  rw [decodeTextWith, hany, Bool.and_false]
  rfl

theorem decodeTextWith_of_flagged {t : List Byte} (h : ∃ w ∈ decodeRequests t, flagged (z85ct w) = true) :
    decodeTextWith true t = .error .invalidSymbol := by
  rw [decodeTextWith, List.any_eq_true.mpr h]
  rfl

/-- A strict host accepts exactly the texts without a flagged response (R89; log 14). -/
theorem decodeTextWith_true_eq_ok_iff (t out : List Byte) :
    decodeTextWith true t = .ok out ↔ out = decodeText t ∧ ∀ w ∈ decodeRequests t, flagged (z85ct w) = false := by
  by_cases h : ∀ w ∈ decodeRequests t, flagged (z85ct w) = false
  · rw [decodeTextWith_of_unflagged h, Except.ok.injEq, and_iff_left h, eq_comm]
  · have hflagged : ∃ w ∈ decodeRequests t, flagged (z85ct w) = true := by simpa using h
    rw [decodeTextWith_of_flagged hflagged]
    exact ⟨nofun, fun hok => absurd hok.2 h⟩

theorem flagged_eq_true_iff (r : Response) : flagged r = true ↔ r.inv = true ∨ r.ovf = true := Bool.or_eq_true_iff ..

theorem flagged_eq_false_iff (r : Response) : flagged r = false ↔ r.inv = false ∧ r.ovf = false :=
  Bool.or_eq_false_iff

/-- R89: a response is unflagged exactly where the operand is of symbols and its value fits. -/
theorem flagged_decResponse_eq_false_iff (c : Fin 5 → Byte) :
    flagged (decResponse (c 0) (c 1) (c 2) (c 3) (c 4)) = false ↔
      (∀ i, dval (c i) = true) ∧ decValue (c 0) (c 1) (c 2) (c 3) (c 4) < 2 ^ 32 := by
  rw [flagged_eq_false_iff, decResponse_inv, invFlag_eq_false_iff, decResponse_ovf, ovfFlag_eq_false_iff]

end Sys2Proof.Machine
end

section
/-! SUPPORT. R75's argument: an encoded last group, cut and then padded with `#`, decodes to a value that is larger by
less than the cut bytes can hold, so the bytes in front of them come out as they were. -/

namespace Sys2Proof.Machine

/-- The five symbols of `v`, the last `j` of them replaced by the Padding Symbol. -/
def cutSymbols (v j : Nat) (i : Fin 5) : Byte := if i.val < 5 - j then encSymbol v i else padSymbol

theorem hostEnc_chunk (b0 b1 b2 b3 : Byte) :
    hostEnc [b0, b1, b2, b3] =
      [encSymbol (rawValue b0 b1 b2 b3) 0, encSymbol (rawValue b0 b1 b2 b3) 1, encSymbol (rawValue b0 b1 b2 b3) 2,
        encSymbol (rawValue b0 b1 b2 b3) 3, encSymbol (rawValue b0 b1 b2 b3) 4] := by
  rw [hostEnc, encRequest, z85ct_encode, respond_enc, encResponse_symbols]
  rfl

theorem z85ct_decRequest (c0 c1 c2 c3 c4 : Byte) :
    z85ct (decRequest [c0, c1, c2, c3, c4]) = decResponse c0 c1 c2 c3 c4 :=
  z85ct_encode (.dec c0 c1 c2 c3 c4)

/-- An encoded chunk, its last `j` symbols cut off and padded again. -/
theorem padded_take_hostEnc (b0 b1 b2 b3 : Byte) {j : Nat} (hj : j ≤ 4) :
    padded 5 padSymbol ((hostEnc [b0, b1, b2, b3]).take (5 - j)) =
      [cutSymbols (rawValue b0 b1 b2 b3) j 0, cutSymbols (rawValue b0 b1 b2 b3) j 1,
        cutSymbols (rawValue b0 b1 b2 b3) j 2, cutSymbols (rawValue b0 b1 b2 b3) j 3,
        cutSymbols (rawValue b0 b1 b2 b3) j 4] := by
  rw [hostEnc_chunk]
  interval_cases j <;> rfl

theorem dval_cutSymbols (v j : Nat) (i : Fin 5) : dval (cutSymbols v j i) = true := by
  rw [cutSymbols]
  split <;> exact dval_alpha _

/-- `#` in the place of the last `j` symbols raises the value by at most `85^j - 1` (R67). -/
theorem decValue_cutSymbols {v j : Nat} (hv : v < 2 ^ 32) (hj : j ≤ 4) :
    v ≤ decValue (cutSymbols v j 0) (cutSymbols v j 1) (cutSymbols v j 2) (cutSymbols v j 3) (cutSymbols v j 4) ∧
      decValue (cutSymbols v j 0) (cutSymbols v j 1) (cutSymbols v j 2) (cutSymbols v j 3) (cutSymbols v j 4) ≤
        v + (85 ^ j - 1) := by
  have hdigit (i : Fin 5) : (didx (cutSymbols v j i)).toNat = if i.val < 5 - j then (encDigit v i).val else 84 := by
    rw [cutSymbols]
    split
    · exact didx_alpha _
    · exact didx_alpha 84
  have htail := digitsValue_tail (d := fun i => (encDigit v i).val) (d' := fun i => (didx (cutSymbols v j i)).toNat) hj
    (fun i hi => by rw [hdigit, if_pos hi])
    (fun i => by have := (encDigit v i).isLt; rw [hdigit]; split <;> omega)
    (fun i => didx_lt _)
  rwa [digitsValue_encDigit hv, ← decValue_eq_digitsValue] at htail

/-- A chunk of a value that is larger by less than `256^j` agrees with one that ends with `j` zero bytes in the bytes
before them. -/
theorem take_eq_of_rawValue {b0 b1 b2 b3 x0 x1 x2 x3 : Byte} {j : Nat} (hj : j ≤ 4)
    (hdvd : 256 ^ j ∣ rawValue b0 b1 b2 b3) (hle : rawValue b0 b1 b2 b3 ≤ rawValue x0 x1 x2 x3)
    (hlt : rawValue x0 x1 x2 x3 < rawValue b0 b1 b2 b3 + 256 ^ j) :
    [x0, x1, x2, x3].take (4 - j) = [b0, b1, b2, b3].take (4 - j) := by
  have hb0 := b0.isLt; have hb1 := b1.isLt; have hb2 := b2.isLt; have hb3 := b3.isLt
  have hx0 := x0.isLt; have hx1 := x1.isLt; have hx2 := x2.isLt; have hx3 := x3.isLt
  unfold rawValue at hdvd hle hlt
  interval_cases j <;> simp [← BitVec.toNat_inj] <;> omega

end Sys2Proof.Machine
end

section
/-! SUPPORT. The round trip of the bulk codec (R75), group by group. -/

namespace Sys2Proof.Machine

/-- A group of at most four bytes, padded, encoded, cut, padded and decoded, is there again and not flagged. -/
theorem dec_cut_enc {b0 b1 b2 b3 : Byte} {j : Nat} (hj : j ≤ 4) (hdvd : 256 ^ j ∣ rawValue b0 b1 b2 b3) :
    let r := z85ct (decRequest (padded 5 padSymbol ((hostEnc [b0, b1, b2, b3]).take (5 - j))))
    r.bytes.take (4 - j) = [b0, b1, b2, b3].take (4 - j) ∧ flagged r = false := by
  have hlt := rawValue_lt b0 b1 b2 b3
  obtain ⟨hle, hle'⟩ := decValue_cutSymbols hlt hj
  have hpow : 85 ^ j - 1 < 256 ^ j := by interval_cases j <;> decide
  -- the value is a multiple of 256^j below 256^4, so there is room for a smaller addend
  have hroom : rawValue b0 b1 b2 b3 + 256 ^ j ≤ 2 ^ 32 := by interval_cases j <;> omega
  rw [padded_take_hostEnc _ _ _ _ hj, z85ct_decRequest]
  have hfits := Nat.lt_of_lt_of_le (Nat.lt_of_le_of_lt hle' (Nat.add_lt_add_left hpow _)) hroom
  refine ⟨?_, (flagged_decResponse_eq_false_iff _).mpr ⟨dval_cutSymbols _ _, hfits⟩⟩
  rw [bytes_of_dout_eq_packResult (decResponse_dout ..)]
  refine take_eq_of_rawValue hj hdvd ?_ ?_
  · rw [rawValue_extract, decData_toNat_of_lt _ _ hfits]
    exact hle
  · rw [rawValue_extract, decData_toNat_of_lt _ _ hfits]
    exact Nat.lt_of_le_of_lt hle' (Nat.add_lt_add_left hpow _)

/-- R75 for one group of at most four bytes, `r + 1` symbols of which are kept. -/
theorem dec_enc_group {p : List Byte} (h : p.length ≤ 4) :
    let r := z85ct (decRequest (padded 5 padSymbol ((hostEnc (padded 4 zeroPad p)).take (p.length + 1))))
    r.bytes.take p.length = p ∧ flagged r = false := by
  have hdvd (b0 b1 b2 : Byte) : 256 ^ 3 ∣ rawValue b0 0#8 0#8 0#8 ∧ 256 ^ 2 ∣ rawValue b0 b1 0#8 0#8 ∧
      256 ^ 1 ∣ rawValue b0 b1 b2 0#8 := by
    simp only [rawValue, BitVec.toNat_ofNat]
    omega
  match p, h with
  | [], _ => exact dec_cut_enc (j := 4) (by decide) (by decide)
  | [b0], _ => exact dec_cut_enc (j := 3) (by decide) (hdvd b0 0#8 0#8).1
  | [b0, b1], _ => exact dec_cut_enc (j := 2) (by decide) (hdvd b0 b1 0#8).2.1
  | [b0, b1, b2], _ => exact dec_cut_enc (j := 1) (by decide) (hdvd b0 b1 b2).2.2
  | [b0, b1, b2, b3], _ => exact dec_cut_enc (j := 0) (by decide) (Nat.one_dvd _)

/-- What has to hold of the text `t` encoded from `b`: it decodes to `b`, and no response on the way is flagged. -/
def DecodesCleanlyTo (t b : List Byte) : Prop :=
  Direction.decoder.bulk t = b ∧ ∀ w ∈ Direction.decoder.bulkRequests t, flagged (z85ct w) = false

/-- A group encoded whole decodes to itself, and the rest of the text after it. -/
theorem decodesCleanlyTo_whole {g t b : List Byte} (hg : g.length = 4) (h : DecodesCleanlyTo t b) :
    DecodesCleanlyTo (hostEnc g ++ t) (g ++ b) := by
  have hlen : (hostEnc g).length = 4 + 1 := rfl
  obtain ⟨hbytes, hflag⟩ := dec_enc_group hg.le
  rw [padded_of_length_eq hg, hg, List.take_of_length_le hlen.le, padded_of_length_eq hlen] at hbytes hflag
  obtain ⟨hbulk, hrequests⟩ := h
  constructor
  · rw [Direction.bulk_append _ hlen.symm.dvd, Direction.bulk_of_length_eq _ hlen, hbulk]
    exact congrArg (· ++ b) hbytes
  · rw [Direction.bulkRequests_append _ hlen.symm.dvd, Direction.bulkRequests_of_length_eq _ hlen]
    exact List.forall_mem_cons.mpr ⟨hflag, hrequests⟩

/-- A last group, encoded and cut, decodes to itself. -/
theorem decodesCleanlyTo_last {p : List Byte} (h0 : p ≠ []) (hp : p.length < 4) :
    DecodesCleanlyTo ((hostEnc (padded 4 zeroPad p)).take (p.length + 1)) p := by
  have hpos := List.length_pos_iff.mpr h0
  obtain ⟨hbytes, hflag⟩ := dec_enc_group hp.le
  have hlen : ((hostEnc (padded 4 zeroPad p)).take (p.length + 1)).length = p.length + 1 :=
    List.length_take_of_le (Nat.le_succ_of_le hp)
  have hkeep : Direction.decoder.keep (p.length + 1) = p.length := by
    simp only [Direction.keep]
    omega
  generalize (hostEnc (padded 4 zeroPad p)).take (p.length + 1) = t at hbytes hflag hlen
  have ht : t ≠ [] := List.ne_nil_of_length_eq_add_one hlen
  have htlt : t.length < Direction.decoder.size := by
    rw [hlen]
    exact Nat.succ_lt_succ hp
  constructor
  · rw [Direction.bulk_of_lt _ ht htlt, Direction.lastOutput, hlen, hkeep]
    exact hbytes
  · rw [Direction.bulkRequests_of_lt _ ht htlt, Direction.lastRequests, if_neg (by rw [hlen, hkeep]; omega)]
    exact List.forall_mem_singleton.mpr hflag

/-- R75, S8, by induction on the groups of the bytes. -/
theorem decodesCleanlyTo_encode (b : List Byte) : DecodesCleanlyTo (Direction.encoder.bulk b) b := by
  induction b using groups_induction Direction.encoder.size_pos with
  | nil => exact ⟨by simp, by simp⟩
  | last p h0 hp =>
    have hkeep : Direction.encoder.keep p.length = p.length + 1 := by
      have hp4 : p.length < 4 := hp
      simp only [Direction.keep]
      omega
    rw [Direction.bulk_of_lt _ h0 hp, Direction.lastOutput, hkeep]
    exact decodesCleanlyTo_last h0 hp
  | whole s hle ih =>
    have hwhole : DecodesCleanlyTo (Direction.encoder.bulk s) (s.take 4 ++ s.drop 4) := by
      rw [Direction.bulk_of_le _ hle]
      exact decodesCleanlyTo_whole (List.length_take_of_le hle) ih
    rwa [List.take_append_drop] at hwhole

end Sys2Proof.Machine
end

section
/-! The bulk codec (42_host_framing.md sections 2, 3 and 7). -/

namespace Sys2Proof.Machine

/-- Settles O41: the length law of R72, on which the other forms are arithmetic. -/
theorem bulkEncodeLength : Obligations.BulkEncodeLength := by
  intro b
  have hlen := encodeBytes_length b
  refine ⟨hlen, ?_, ?_⟩
  · rw [hlen, encodedLength]
    split <;> omega
  · rw [hlen, encodedLength]
    split <;> omega

/-- Settles O43: after whole groups, a single symbol is a last group that keeps nothing. -/
theorem oneTrailingSymbolYieldsNoByte : Obligations.OneTrailingSymbolYieldsNoByte := by
  refine ⟨fun t c h => ?_, decodeText_singleton _, by decide +kernel⟩
  have happend : decodeText (t ++ [c]) = decodeText t := by
    have hsplit := Direction.decoder.bulk_append (Nat.dvd_of_mod_eq_zero h) [c]
    rwa [← decodeText_eq_bulk, ← decodeText_eq_bulk, ← decodeText_eq_bulk, decodeText_singleton,
      List.append_nil] at hsplit
  exact ⟨happend, by rw [decodeTextWith_false, happend]⟩

/-- Settles O44, by evaluation. -/
theorem padValuesAreNotInterchangeable : Obligations.PadValuesAreNotInterchangeable := by
  unfold Obligations.PadValuesAreNotInterchangeable
  decide +kernel

/-- Settles O45: the encoded text decodes cleanly, so a strict host fails at nothing in it. -/
theorem bulkRoundTrip : Obligations.BulkRoundTrip := by
  intro b
  obtain ⟨hbulk, hrequests⟩ := decodesCleanlyTo_encode b
  rw [← encodeBytes_eq_bulk, ← decodeText_eq_bulk] at hbulk
  rw [← encodeBytes_eq_bulk, ← decodeRequests_eq_bulkRequests] at hrequests
  exact ⟨hbulk, fun strict => by rw [decodeTextWith_of_unflagged hrequests, hbulk]⟩

/-- Settles O46: the first group of a text of at least five symbols is the first request made for it. -/
theorem strictDecodeRejectsFlaggedGroups : Obligations.StrictDecodeRejectsFlaggedGroups := by
  intro t
  refine ⟨decodeTextWith_false t, ?_, fun out h => ?_⟩
  · simp only [← flagged_eq_true_iff]
    refine ⟨fun h => ?_, decodeTextWith_of_flagged⟩
    by_contra hnone
    have hunflagged : ∀ w ∈ decodeRequests t, flagged (z85ct w) = false := by simpa using hnone
    exact nomatch (decodeTextWith_of_unflagged hunflagged true).symm.trans h
  · obtain ⟨rfl, hunflagged⟩ := (decodeTextWith_true_eq_ok_iff t out).mp h
    refine ⟨rfl, ?_⟩
    rintro c0 c1 c2 c3 c4 rest rfl
    have hle : Direction.decoder.size ≤ (c0 :: c1 :: c2 :: c3 :: c4 :: rest).length := Nat.le_add_left 5 rest.length
    rw [decodeRequests_eq_bulkRequests, Direction.bulkRequests_of_le _ hle] at hunflagged
    have hfirst : flagged (z85ct (decRequest [c0, c1, c2, c3, c4])) = false := hunflagged _ List.mem_cons_self
    rw [z85ct_decRequest] at hfirst
    obtain ⟨hval, hlt⟩ := (flagged_decResponse_eq_false_iff ![c0, c1, c2, c3, c4]).mp hfirst
    exact ⟨hval 0, hval 1, hval 2, hval 3, hval 4, hlt⟩

/-- Settles O47: the block answers the requests with `z85ct`, and the host assembles these responses. -/
theorem bulkEncodeRunsOnTheBlock : Obligations.BulkEncodeRunsOnTheBlock := by
  intro s b h
  obtain ⟨t, hrun, hpending, hresponses⟩ := run_presentAll h (encodeRequests b)
  rw [encodeRequests_length] at hrun
  exact ⟨t, _, hrun, hpending, hresponses, assembleEncoded_eq b⟩

/-- Settles O48, in the same way. -/
theorem bulkDecodeRunsOnTheBlock : Obligations.BulkDecodeRunsOnTheBlock := by
  intro s text h
  obtain ⟨t, hrun, hpending, hresponses⟩ := run_presentAll h (decodeRequests text)
  exact ⟨t, _, hrun, hpending, hresponses, assembleDecoded_eq text⟩

end Sys2Proof.Machine
end

section
/-! SUPPORT. What one group, the loop over groups and a `close` leave as it was, whatever the sink and a strict decoder
say: direction, `STRICT`, `closed`, and that the Carry Buffer is shorter than a group (R78, R84). -/

namespace Sys2Proof.Machine

theorem freeCarry_length_lt (s : Stream) : s.freeCarry.length < s.direction.size := by
  have hpos := s.direction.size_pos
  rw [Stream.freeCarry, List.length_take]
  omega

theorem carryFits_strictFailed (s : Stream) : CarryFits s.strictFailed := freeCarry_length_lt s

theorem carryFits_sinkFailed (s : Stream) (e : HostError) : CarryFits (s.sinkFailed e) := freeCarry_length_lt s

/-- One group, however it ends. -/
theorem emit_keeps {s t : Stream} {g : List Byte} {keep : Nat} {e : Option HostError} (h : s.emit g keep = (t, e)) :
    t.direction = s.direction ∧ t.strict = s.strict ∧ t.closed = s.closed ∧ (CarryFits s → CarryFits t) := by
  rcases emit_cases s t g keep e h with
    ⟨-, -, rfl⟩ | ⟨-, ⟨-, -, rfl⟩ | ⟨-, -, k, -, rfl⟩ | ⟨-, x, k, -, -, rfl⟩⟩
  · exact ⟨rfl, rfl, rfl, fun _ => carryFits_strictFailed _⟩
  · exact ⟨rfl, rfl, rfl, id⟩
  · exact ⟨rfl, rfl, rfl, id⟩
  · exact ⟨rfl, rfl, rfl, fun _ => carryFits_sinkFailed ..⟩

/-- The loop over all whole groups of `p` leaves less than one to carry. -/
theorem carryFits_emitGroups {s : Stream} (hs : CarryFits s) {k : Nat} {p : List Byte}
    (hk : p.length / s.direction.size = k) : CarryFits (s.emitGroups k p).1 := by
  induction k generalizing s p with
  | zero => exact (Nat.div_eq_zero_iff_lt s.direction.size_pos).mp hk
  | succ k ih =>
    have hle : s.direction.size ≤ p.length := (Nat.div_pos_iff.mp (hk ▸ Nat.succ_pos k)).2
    rw [length_div_of_le s.direction.size_pos hle] at hk
    rw [Stream.emitGroups]
    split
    · next t heq =>
      obtain ⟨hdir, -, -, hfits⟩ := emit_keeps heq
      rw [← hdir] at hk ⊢
      exact ih (hfits hs) (Nat.succ_injective hk)
    · next t e heq => exact (emit_keeps heq).2.2.2 hs

theorem carryFits_absorb {s : Stream} (hs : CarryFits s) (p : List Byte) : CarryFits (s.absorb p).1 := by
  rw [absorb_eq_emitGroups s p hs]
  exact carryFits_emitGroups (s := { s with carry := [] }) s.direction.size_pos rfl

theorem carryFits_write {s : Stream} (hs : CarryFits s) (p : List Byte) : CarryFits (s.write p).1 := by
  cases ho : s.status with
  | error e => rwa [write_of_error p ho]
  | opened =>
    cases hc : s.closed with
    | true => rwa [write_of_closed p ho hc]
    | false =>
      rw [write_of_open s p ho hc]
      exact carryFits_absorb hs p

theorem carryFits_flush (s : Stream) : CarryFits s.flush.1 := by
  have hempty : CarryFits { s with carry := [] } := s.direction.size_pos
  simp only [Stream.flush]
  split
  · exact hempty
  · exact (emit_keeps rfl).2.2.2 hempty

theorem carryFits_close {s : Stream} (hs : CarryFits s) : CarryFits s.close.1 := by
  cases ho : s.status with
  | error e => rw [close_of_error ho]; exact hs
  | opened =>
    cases hc : s.closed with
    | true => rwa [close_of_closed ho hc]
    | false =>
      rw [close_of_open ho hc]
      split
      · exact hs
      · exact carryFits_flush _

theorem flush_closed (s : Stream) : s.flush.1.closed = s.closed := by
  simp only [Stream.flush]
  split
  · rfl
  · exact (emit_keeps (s := { s with carry := [] }) rfl).2.2.1

/-- After a `close` a stream is closed, whatever was returned (R81, R86). -/
theorem close_closed (s : Stream) : s.close.1.closed = true := by
  cases ho : s.status with
  | error e => rw [close_of_error ho]
  | opened =>
    cases hc : s.closed with
    | true => rw [close_of_closed ho hc]; exact hc
    | false =>
      rw [close_of_open ho hc]
      split
      · rfl
      · exact flush_closed { s with closed := true }

/-- A `close` of a closed stream leaves it alone and reports its status (C4). -/
theorem close_of_closed_true {t : Stream} (hc : t.closed = true) :
    t.close.1 = t ∧ (t.status = .opened → t.close.2 = none) ∧ ∀ e, t.status = .error e → t.close.2 = some e := by
  cases ho : t.status with
  | opened =>
    rw [close_of_closed ho hc]
    exact ⟨rfl, fun _ => rfl, nofun⟩
  | error e =>
    rw [close_of_error ho]
    refine ⟨?_, nofun, fun e' he' => congrArg some (Status.error.inj he')⟩
    rw [← hc]

/-- `REJECTED_WRITE_COUNT` is one of two counts (R5, D18; log 11). -/
theorem rejectedWriteCount_cases (n : Nat) : rejectedWriteCount n = 0 ∨ rejectedWriteCount n = n := by
  rw [rejectedWriteCount]
  split
  · exact .inr rfl
  · exact .inl rfl

/-- The count a `write` reports: the length, or `REJECTED_WRITE_COUNT` with an error (R79). -/
theorem write_count (s : Stream) (p : List Byte) :
    (s.write p).2.count = if (s.write p).2.error.isSome then rejectedWriteCount p.length else p.length := by
  cases ho : s.status with
  | error e => rw [write_of_error p ho]; rfl
  | opened =>
    cases hc : s.closed with
    | true => rw [write_of_closed p ho hc]; rfl
    | false => rw [write_of_open s p ho hc]

/-- A `write` that leaves the pending group short of whole (R79). -/
theorem write_of_short {s : Stream} {p : List Byte} (ho : s.status = .opened) (hc : s.closed = false)
    (h : s.carry.length + p.length < s.direction.size) :
    s.write p = ({ s with carry := s.carry ++ p }, { count := p.length, error := none }) := by
  have hdiv : (s.carry ++ p).length / s.direction.size = 0 := Nat.div_eq_of_lt (by rwa [List.length_append])
  rw [write_of_open s p ho hc, absorb_eq_emitGroups s p (Nat.lt_of_le_of_lt (Nat.le_add_right ..) h), hdiv]
  rfl

/-- R77: a `put` appends the whole group, or fails and appends the first elements of it. -/
theorem put_content (k k' : Sink) (g : List Byte) (e : Option HostError) (h : k.put g = (k', e)) :
    (e = none ∧ k'.content = k.content ++ g) ∨
      ∃ x n, e = some (.sink x) ∧ n ≤ g.length - 1 ∧ k'.content = k.content ++ g.take n := by
  rcases put_cases k k' g e h with ⟨he, hreceived, -⟩ | ⟨x, kept, he, -, hreceived, -⟩
  · exact .inl ⟨he, by rw [Sink.content, hreceived]; simp [Sink.content]⟩
  · exact .inr ⟨x, min kept (g.length - 1), he, Nat.min_le_right .., by
      rw [Sink.content, hreceived]; simp [Sink.content]⟩

/-- A call on one stream changes what stands at its place, and nothing elsewhere (R88). -/
theorem callAt_getElem? (ss : List Stream) (i j : Nat) (c : Call) :
    (callAt ss i c)[j]? = ss[j]?.map fun s => if i = j then s.call c else s := by
  rw [callAt, List.getElem?_modify]
  rfl

end Sys2Proof.Machine
end

section
/-! Single calls on a stream, and several streams side by side (42_host_framing.md sections 4, 5 and 7). -/

namespace Sys2Proof.Machine

/-- Settles O49: what a failing sink kept stops short of the group's last element. -/
theorem putAppendsTheGroupOrAProperPrefix : Obligations.PutAppendsTheGroupOrAProperPrefix := by
  intro k k' g e hg hput
  have hpos := List.length_pos_iff.mpr hg
  rcases put_content k k' g e hput with ⟨rfl, hcontent⟩ | ⟨x, n, rfl, hn, hcontent⟩
  · exact ⟨fun _ => hcontent, nofun⟩
  · refine ⟨nofun, fun _ _ => ⟨g.take n, hcontent, List.take_prefix .., ?_⟩⟩
    rw [List.length_take]
    omega

/-- Settles O50: whatever ends the loop over the groups, what is carried then is shorter than a group. -/
theorem carryAlwaysFits : Obligations.CarryAlwaysFits := by
  refine ⟨fun d _ _ => ⟨d.size_pos, rfl, rfl, rfl⟩, fun s c hs => ?_⟩
  cases c with
  | write p => exact carryFits_write hs p
  | close => exact carryFits_close hs

/-- Settles O51: the count goes by the error alone, and a short write completes no group. -/
theorem writeReportsItsLengthAndCarries : Obligations.WriteReportsItsLengthAndCarries := by
  refine ⟨fun s p => ?_, fun s p ho hc h => write_of_short ho hc h⟩
  rw [write_count]
  refine ⟨fun h => ?_, fun h => ?_⟩
  · rw [h]
    rfl
  · rw [Option.isSome_iff_ne_none.mpr h]
    exact rejectedWriteCount_cases _

/-- Settles O54: a `close` leaves the stream closed, and then `close` finds nothing to do. -/
theorem secondCloseIsANoOp : Obligations.SecondCloseIsANoOp :=
  fun s => ⟨close_closed s, close_of_closed_true (close_closed s)⟩

/-- Settles O59, by induction on the history: a call reaches the stream at its place alone. -/
theorem instancesAreIndependent : Obligations.InstancesAreIndependent := by
  intro ss history i
  induction history generalizing ss with
  | nil => simp [callsAt, Stream.calls]
  | cons h history ih =>
    rw [callsAt, List.foldl_cons, ← callsAt, ih, callAt_getElem?, Option.map_map]
    by_cases hi : h.1 = i
    · simp [hi, Stream.calls, Function.comp_def]
    · simp [hi, Function.comp_def]

end Sys2Proof.Machine
end

section
/-! SUPPORT. A stream that rejects nothing, on any sink (R77, R113). As long as nothing failed, its content followed by
what the bulk procedure makes of the carried elements and of those still to be written is the full output; once a `put`
failed the content is a first part of the full output, and stays as it is. -/

namespace Sys2Proof.Machine

/-- One group that is not rejected: the kept elements are put, or the sink failed and received the first of them. -/
theorem emit_of_not_rejected {s : Stream} {g : List Byte} (keep : Nat)
    (hr : s.direction.rejects s.strict (z85ct (s.direction.request g)) = false) :
    let out := (s.direction.output (z85ct (s.direction.request g))).take keep
    (∃ k, s.emit g keep = ({ s with presented := s.presented ++ [s.direction.request g], sink := k }, none) ∧
      k.content = s.sink.content ++ out) ∨
    ∃ t e, s.emit g keep = (t, some e) ∧ t.status = .error e ∧ t.sink.content <+: s.sink.content ++ out := by
  generalize h : s.emit g keep = r
  obtain ⟨t, err⟩ := r
  rcases emit_cases s t g keep err h with
    ⟨hrejected, -⟩ | ⟨-, ⟨rfl, rfl, rfl⟩ | ⟨-, rfl, k, hput, rfl⟩ | ⟨-, x, k, rfl, hput, rfl⟩⟩
  · exact absurd (hrejected.symm.trans hr) (by decide)
  · exact .inl ⟨s.sink, rfl, by simp⟩
  · rcases put_content _ _ _ _ hput with ⟨-, hcontent⟩ | ⟨_, _, hnone, -⟩
    · exact .inl ⟨k, rfl, hcontent⟩
    · exact nomatch hnone
  · rcases put_content _ _ _ _ hput with ⟨hsome, -⟩ | ⟨_, n, -, -, hcontent⟩
    · exact nomatch hsome
    · refine .inr ⟨_, .sink x, rfl, rfl, ?_⟩
      rw [sinkFailed_sink, hcontent]
      exact (List.prefix_append_right_inj _).mpr (List.take_prefix ..)

/-- The loop over `k` whole groups of `p`. -/
theorem emitGroups_of_not_rejecting {s : Stream} {k : Nat} {p : List Byte}
    (hr : ∀ r, s.direction.rejects s.strict r = false) (hp : s.direction.size * k ≤ p.length) :
    (∃ ws k', s.emitGroups k p =
        ({ s with carry := p.drop (s.direction.size * k), presented := ws, sink := k' }, none) ∧
      ∀ rest, k'.content ++ s.direction.bulk (p.drop (s.direction.size * k) ++ rest) =
        s.sink.content ++ s.direction.bulk (p ++ rest)) ∨
    ∃ t e, s.emitGroups k p = (t, some e) ∧ t.status = .error e ∧
      ∀ rest, t.sink.content <+: s.sink.content ++ s.direction.bulk (p ++ rest) := by
  induction k generalizing s p with
  | zero => exact .inl ⟨s.presented, s.sink, rfl, fun rest => rfl⟩
  | succ k ih =>
    rw [Nat.mul_succ] at hp
    have hle : s.direction.size ≤ p.length := by omega
    have hbulk (rest : List Byte) : s.direction.bulk (p ++ rest) =
        s.direction.output (z85ct (s.direction.request (p.take s.direction.size))) ++
          s.direction.bulk (p.drop s.direction.size ++ rest) := by
      rw [s.direction.bulk_of_le (by rw [List.length_append]; omega), List.take_append_of_le_length hle,
        List.drop_append_of_le_length hle]
    have hemit := emit_of_not_rejected (s.direction.keep s.direction.size)
      (hr (z85ct (s.direction.request (p.take s.direction.size))))
    rw [Direction.take_keep_size_output] at hemit
    rw [Stream.emitGroups]
    obtain ⟨k1, h1, hcontent⟩ | ⟨t, e, h1, hstatus, hprefix⟩ := hemit
    · have hloop := ih
        (s := { s with presented := s.presented ++ [s.direction.request (p.take s.direction.size)], sink := k1 })
        (p := p.drop s.direction.size) hr (by rw [List.length_drop]; exact Nat.le_sub_of_add_le hp)
      simp only [hcontent, List.append_assoc, ← hbulk, List.drop_drop, Nat.add_comm s.direction.size,
        ← Nat.mul_succ] at hloop
      rw [h1]
      exact hloop
    · rw [h1]
      refine .inr ⟨t, e, rfl, hstatus, fun rest => hprefix.trans ?_⟩
      rw [hbulk, ← List.append_assoc]
      exact List.prefix_append ..

/-- An open stream that rejects nothing and will have put `full` once `rest` is written and it is closed, if its sink
does not fail; or one whose sink failed and holds a first part of `full`. -/
inductive LeadsTo (full : List Byte) (rest : List Byte) (s : Stream) : Prop where
  | opened (status : s.status = .opened) (notClosed : s.closed = false) (carryFits : CarryFits s)
      (rejectsNone : ∀ r, s.direction.rejects s.strict r = false) (content : s.finalContent rest = full)
  | failed (e : HostError) (status : s.status = .error e) (content : s.sink.content <+: full)

theorem leadsTo_write {full p rest : List Byte} {s : Stream} (h : LeadsTo full (p ++ rest) s) :
    LeadsTo full rest (s.write p).1 := by
  cases h with
  | failed e hstatus hcontent =>
    rw [write_of_error p hstatus]
    exact .failed e hstatus hcontent
  | opened ho hc hfits hr hfull =>
    have hfinal : s.sink.content ++ s.direction.bulk (s.carry ++ p ++ rest) = full := by
      rw [List.append_assoc]
      exact hfull
    rw [write_of_open s p ho hc, absorb_eq_emitGroups s p hfits]
    obtain ⟨ws, k', hloop, hrest⟩ | ⟨t, e, hloop, hstatus, hprefix⟩ :=
      emitGroups_of_not_rejecting (s := { s with carry := [] }) hr
        (Nat.mul_div_le (s.carry ++ p).length s.direction.size)
    · rw [hloop]
      refine .opened ho hc ?_ hr ((hrest rest).trans hfinal)
      rw [CarryFits, List.length_drop, ← Nat.mod_def]
      exact Nat.mod_lt _ s.direction.size_pos
    · rw [hloop]
      exact .failed e hstatus (hfinal ▸ hprefix rest)

/-- What the sink holds at the end: all of `full`, or a first part of it and the error is recorded. -/
def EndsWith (full : List Byte) (t : Stream) : Prop :=
  t.sink.content <+: full ∧ (t.status = .opened → t.sink.content = full)

theorem endsWith_of_failed {full : List Byte} {t : Stream} {e : HostError} (h : t.status = .error e)
    (hcontent : t.sink.content <+: full) : EndsWith full t :=
  ⟨hcontent, fun ho => nomatch h.symm.trans ho⟩

theorem endsWith_of_eq {full : List Byte} {t : Stream} (h : t.sink.content = full) : EndsWith full t :=
  ⟨h ▸ List.prefix_refl _, fun _ => h⟩

theorem endsWith_flush {s : Stream} (h0 : s.carry ≠ []) (hfits : CarryFits s)
    (hr : ∀ r, s.direction.rejects s.strict r = false) : EndsWith (s.finalContent []) s.flush.1 := by
  rw [Stream.finalContent, List.append_nil, s.direction.bulk_of_lt h0 hfits, Direction.lastOutput, Stream.flush]
  split
  · next hskip =>
    exact endsWith_of_eq (by rw [hskip.1]; simp)
  · obtain ⟨k', hemit, hcontent⟩ | ⟨t, e, hemit, hstatus, hprefix⟩ :=
      emit_of_not_rejected (s := { s with carry := [] }) (s.direction.keep s.carry.length)
        (hr (z85ct (s.direction.request (padded s.direction.size s.direction.pad s.carry))))
    · rw [padded] at hemit
      rw [hemit]
      exact endsWith_of_eq hcontent
    · rw [padded] at hemit
      rw [hemit]
      exact endsWith_of_failed hstatus hprefix

theorem endsWith_close {full : List Byte} {s : Stream} (h : LeadsTo full [] s) : EndsWith full s.close.1 := by
  cases h with
  | failed e hstatus hcontent =>
    rw [close_of_error hstatus]
    exact endsWith_of_failed hstatus hcontent
  | opened ho hc hfits hr hfull =>
    rw [close_of_open ho hc, ← hfull]
    split
    · next h0 => exact endsWith_of_eq (by simp [Stream.finalContent, h0])
    · next h0 => exact endsWith_flush (s := { s with closed := true }) h0 hfits hr

theorem endsWith_run {full : List Byte} {ps : List (List Byte)} {s : Stream} (h : LeadsTo full ps.flatten s) :
    EndsWith full (s.run ps) := by
  induction ps generalizing s with
  | nil => exact endsWith_close h
  | cons p ps ih => exact ih (leadsTo_write h)

theorem rejects_permissive (d : Direction) (r : Response) : d.rejects false r = false := by
  cases d <;> rfl

/-- A new permissive stream on an empty sink leads to the output of its bulk procedure. -/
theorem leadsTo_create (d : Direction) (answers : List SinkAnswer) (rest : List Byte) :
    LeadsTo (d.bulk rest) rest (Stream.create d false { received := [], answers := answers }) :=
  .opened rfl rfl d.size_pos (rejects_permissive d) rfl

end Sys2Proof.Machine
end

section
/-! The streaming decoder and the bulk one, and runs whose sink fails (42_host_framing.md sections 4 and 6). -/

namespace Sys2Proof.Machine

/-- A permissive decoder on a sink that never fails: it rejects nothing. -/
theorem unfailing_create_decoder {k : Sink} (hk : NeverFails k) : Unfailing (Stream.create .decoder false k) :=
  ⟨rfl, rfl, Direction.size_pos _, hk, rejects_permissive _⟩

/-- Settles O56: a new decoder carries nothing and has presented nothing. -/
theorem streamDecoderEqualsBulkDecode : Obligations.StreamDecoderEqualsBulkDecode := by
  intro k ps hk
  obtain ⟨hcontent, hpresented, hstate⟩ := run_of_unfailing (unfailing_create_decoder hk) ps
  rw [decodeText_eq_bulk, decodeRequests_eq_bulkRequests]
  exact ⟨hcontent, hpresented, hstate⟩

/-- Settles O58: a new stream of either direction leads to its bulk procedure's output, and every call keeps it so. -/
theorem failedRunLeavesAPrefix : Obligations.FailedRunLeavesAPrefix := by
  intro answers ps
  obtain ⟨hprefix, hwhole⟩ := endsWith_run (leadsTo_create .encoder answers ps.flatten)
  obtain ⟨hprefix', hwhole'⟩ := endsWith_run (leadsTo_create .decoder answers ps.flatten)
  rw [encodeBytes_eq_bulk, decodeText_eq_bulk]
  exact ⟨hprefix, hwhole, hprefix', hwhole'⟩

end Sys2Proof.Machine
end

section
/-! SUPPORT. The loop over the groups, one group at a time. -/

namespace Sys2Proof.Machine

theorem emitGroups_succ_of_none {s t : Stream} {k : Nat} {p : List Byte}
    (h : s.emit (p.take s.direction.size) (s.direction.keep s.direction.size) = (t, none)) :
    s.emitGroups (k + 1) p = t.emitGroups k (p.drop s.direction.size) := by
  rw [Stream.emitGroups, h]

theorem emitGroups_succ_of_some {s t : Stream} {k : Nat} {p : List Byte} {e : HostError}
    (h : s.emit (p.take s.direction.size) (s.direction.keep s.direction.size) = (t, some e)) :
    s.emitGroups (k + 1) p = (t, some e) := by
  rw [Stream.emitGroups, h]

/-- The groups of `p` behind its first one, by their places. -/
theorem slice_succ (p : List Byte) (size j : Nat) :
    slice p (size * (j + 1)) (size * (j + 1) + size) = slice (p.drop size) (size * j) (size * j + size) := by
  rw [slice_drop, Nat.mul_succ, ← Nat.add_assoc, Nat.add_comm size (size * j)]

theorem slice_first (p : List Byte) (size : Nat) : slice p (size * 0) (size * 0 + size) = p.take size := by
  rw [Nat.mul_zero, Nat.zero_add, slice, List.drop_zero, Nat.sub_zero]

theorem mem_wholeGroups_iff {size : Nat} (h0 : 0 < size) (p g : List Byte) :
    g ∈ wholeGroups size p ↔ ∃ j, size * j + size ≤ p.length ∧ slice p (size * j) (size * j + size) = g := by
  simp only [wholeGroups, List.mem_map, List.mem_range, Nat.lt_iff_add_one_le, Nat.le_div_iff_mul_le h0, Nat.add_mul,
    Nat.one_mul, Nat.mul_comm size]

/-- The whole groups of a text are the first groups of every longer one. -/
theorem Direction.map_wholeGroups_prefix (d : Direction) (s rest : List Byte) :
    (wholeGroups d.size s).map d.request <+: d.bulkRequests (s ++ rest) := by
  induction s using groups_induction d.size_pos with
  | nil => rw [wholeGroups_of_lt d.size_pos]; exact List.nil_prefix
  | last s _ hlt => rw [wholeGroups_of_lt hlt]; exact List.nil_prefix
  | whole s hle ih =>
    rw [wholeGroups_of_le d.size_pos hle, d.bulkRequests_of_le (by rw [List.length_append]; omega),
      List.take_append_of_le_length hle, List.drop_append_of_le_length hle, List.map_cons]
    exact (List.prefix_cons_inj _).mpr ih

end Sys2Proof.Machine
end

section
/-! SUPPORT. `STRICT` makes no difference where no response is flagged (R89): for one group, in a `write`, in a `close`,
and in a whole run on a sink that never fails. -/

namespace Sys2Proof.Machine

/-- `s` with the option `STRICT` set to `b`. -/
def Stream.withStrict (b : Bool) (s : Stream) : Stream := { s with strict := b }

/-- What a call did to a stream and returned, on the stream with the option `STRICT` set to `b`. -/
def resultWithStrict {α : Type} (b : Bool) (r : Stream × α) : Stream × α := (r.1.withStrict b, r.2)

theorem rejects_of_unflagged (d : Direction) (strict : Bool) {r : Response} (h : flagged r = false) :
    d.rejects strict r = false := by
  cases d with
  | encoder => rfl
  | decoder => rw [Direction.rejects, h, Bool.and_false]

theorem emit_withStrict (b : Bool) (s : Stream) {g : List Byte} (keep : Nat)
    (h : flagged (z85ct (s.direction.request g)) = false) :
    (s.withStrict b).emit g keep = resultWithStrict b (s.emit g keep) := by
  simp only [Stream.emit, Stream.withStrict, rejects_of_unflagged _ _ h, Bool.false_eq_true, if_false]
  by_cases hkeep : keep = 0
  · rw [if_pos hkeep, if_pos hkeep]
    rfl
  · rw [if_neg hkeep, if_neg hkeep]
    rcases s.sink.put ((s.direction.output (z85ct (s.direction.request g))).take keep) with ⟨k, _ | e⟩ <;> rfl

theorem emitGroups_withStrict (b : Bool) {s : Stream} {k : Nat} {p : List Byte} (hk : p.length / s.direction.size = k)
    (h : ∀ g ∈ wholeGroups s.direction.size p, flagged (z85ct (s.direction.request g)) = false) :
    (s.withStrict b).emitGroups k p = resultWithStrict b (s.emitGroups k p) := by
  induction k generalizing s p with
  | zero => rfl
  | succ k ih =>
    have hle : s.direction.size ≤ p.length := (Nat.div_pos_iff.mp (hk ▸ Nat.succ_pos k)).2
    rw [length_div_of_le s.direction.size_pos hle] at hk
    rw [wholeGroups_of_le s.direction.size_pos hle, List.forall_mem_cons] at h
    obtain ⟨hfirst, hrest⟩ := h
    have hemit := emit_withStrict b s (s.direction.keep s.direction.size) hfirst
    generalize hr : s.emit (p.take s.direction.size) (s.direction.keep s.direction.size) = r at hemit
    obtain ⟨t, _ | e⟩ := r
    · rw [emitGroups_succ_of_none hr, emitGroups_succ_of_none (s := s.withStrict b) hemit]
      obtain ⟨hdir, -⟩ := emit_keeps hr
      rw [← hdir] at hk hrest
      change (t.withStrict b).emitGroups k (p.drop s.direction.size) = _
      rw [← hdir]
      exact ih (Nat.succ_injective hk) hrest
    · rw [emitGroups_succ_of_some hr, emitGroups_succ_of_some (s := s.withStrict b) hemit]
      rfl

/-- A `write` of an open stream that meets no flagged group. -/
theorem write_withStrict (b : Bool) {s : Stream} (ho : s.status = .opened) (hc : s.closed = false) (hfits : CarryFits s)
    {p : List Byte}
    (h : ∀ g ∈ wholeGroups s.direction.size (s.carry ++ p), flagged (z85ct (s.direction.request g)) = false) :
    (s.withStrict b).write p = resultWithStrict b (s.write p) := by
  have hloop := emitGroups_withStrict b (s := { s with carry := [] }) rfl h
  have habsorb : (s.withStrict b).absorb p = resultWithStrict b (s.absorb p) := by
    rw [absorb_eq_emitGroups s p hfits, absorb_eq_emitGroups (s.withStrict b) p hfits]
    exact hloop
  rw [write_of_open s p ho hc, write_of_open (s.withStrict b) p ho hc, habsorb]
  rfl

/-- The last group of a `close`, where its transaction is skipped or its response is not flagged. -/
theorem flush_withStrict (b : Bool) {s : Stream}
    (h : (s.direction.keep s.carry.length = 0 ∧ Config.skipsOneSymbolGroup) ∨
      flagged (z85ct (s.direction.request (padded s.direction.size s.direction.pad s.carry))) = false) :
    (s.withStrict b).flush = resultWithStrict b s.flush := by
  simp only [Stream.flush]
  by_cases hskip : s.direction.keep s.carry.length = 0 ∧ Config.skipsOneSymbolGroup
  · rw [if_pos hskip]
    exact if_pos hskip
  · rw [if_neg hskip]
    exact (if_neg hskip).trans (emit_withStrict b { s with carry := [] } _ (h.resolve_left hskip))

/-- A `close` of an open stream that carries nothing or such a last group. -/
theorem close_withStrict (b : Bool) {s : Stream} (ho : s.status = .opened) (hc : s.closed = false)
    (h : s.carry = [] ∨ (s.direction.keep s.carry.length = 0 ∧ Config.skipsOneSymbolGroup) ∨
      flagged (z85ct (s.direction.request (padded s.direction.size s.direction.pad s.carry))) = false) :
    (s.withStrict b).close = resultWithStrict b s.close := by
  rw [close_of_open ho hc, close_of_open (s := s.withStrict b) ho hc]
  by_cases h0 : s.carry = []
  · rw [if_pos h0]
    exact if_pos h0
  · rw [if_neg h0]
    exact (if_neg h0).trans (flush_withStrict b (s := { s with closed := true }) (h.resolve_left h0))

/-- A run of a stream that nothing can fail, all of whose requests have unflagged responses. -/
theorem run_withStrict (b : Bool) {s : Stream} (hs : Unfailing s) {ps : List (List Byte)}
    (h : ∀ w ∈ s.finalPresented ps.flatten, flagged (z85ct w) = false) :
    (s.withStrict b).run ps = (s.run ps).withStrict b := by
  induction ps generalizing s with
  | nil =>
    obtain ⟨ho, hc, hfits, -, -⟩ := hs
    have hclose : (s.withStrict b).close = resultWithStrict b s.close := by
      refine close_withStrict b ho hc (or_iff_not_imp_left.mpr fun h0 => or_iff_not_imp_left.mpr fun hskip => h _ ?_)
      rw [Stream.finalPresented, List.flatten_nil, List.append_nil, s.direction.bulkRequests_of_lt h0 hfits,
        Direction.lastRequests, if_neg hskip]
      exact List.mem_append_right _ (List.mem_singleton_self _)
    exact congrArg Prod.fst hclose
  | cons p ps ih =>
    have hwrite : (s.withStrict b).write p = resultWithStrict b (s.write p) := by
      refine write_withStrict b hs.opened hs.notClosed hs.carryFits fun g hg => h _ (List.mem_append_right _ ?_)
      rw [List.flatten_cons, ← List.append_assoc]
      exact (s.direction.map_wholeGroups_prefix _ _).subset (List.mem_map_of_mem hg)
    obtain ⟨hs', hrest⟩ := write_of_unfailing hs p
    rw [List.flatten_cons, ← (hrest _).2] at h
    change (((s.withStrict b).write p).1).run ps = _
    rw [hwrite]
    exact ih hs' h

end Sys2Proof.Machine
end

section
/-! SUPPORT. A strict decoder that meets a flagged group (R89): the groups before it are put, and nothing of it. -/

namespace Sys2Proof.Machine

/-- A `put` that is not answered with a failure takes one answer and appends the group. -/
theorem put_of_ok {k : Sink} (h : ∀ a ∈ k.answers.take 1, a = .ok) (g : List Byte) :
    ∃ k', k.put g = (k', none) ∧ k'.content = k.content ++ g ∧ k'.answers = k.answers.drop 1 := by
  generalize hput : k.put g = r
  obtain ⟨k', e⟩ := r
  rcases put_cases k k' g e hput with ⟨rfl, hreceived, hanswers⟩ | ⟨x, kept, -, hhead, -, -⟩
  · exact ⟨k', rfl, by simp [Sink.content, hreceived], by rw [hanswers, List.drop_one]⟩
  · have hmem : SinkAnswer.fail x kept ∈ k.answers.take 1 := by
      rw [List.take_one, hhead]
      exact List.mem_singleton_self _
    exact nomatch h _ hmem

/-- One group that is not rejected and whose `put` is not answered with a failure. -/
theorem emit_of_ok {s : Stream} {g : List Byte} {keep : Nat} (hkeep : keep ≠ 0)
    (hr : s.direction.rejects s.strict (z85ct (s.direction.request g)) = false)
    (h : ∀ a ∈ s.sink.answers.take 1, a = .ok) :
    ∃ k', s.emit g keep = ({ s with presented := s.presented ++ [s.direction.request g], sink := k' }, none) ∧
      k'.content = s.sink.content ++ (s.direction.output (z85ct (s.direction.request g))).take keep ∧
      k'.answers = s.sink.answers.drop 1 := by
  obtain ⟨k', hput, hcontent, hanswers⟩ :=
    put_of_ok h ((s.direction.output (z85ct (s.direction.request g))).take keep)
  refine ⟨k', ?_, hcontent, hanswers⟩
  simp only [Stream.emit, hr, Bool.false_eq_true, if_false, if_neg hkeep, hput]

theorem emit_of_rejected {s : Stream} {g : List Byte} (keep : Nat)
    (hr : s.direction.rejects s.strict (z85ct (s.direction.request g)) = true) :
    s.emit g keep =
      ({ s with presented := s.presented ++ [s.direction.request g] }.strictFailed, some .invalidSymbol) := by
  simp only [Stream.emit, hr, if_true]

/-- Group number `j` of `p`. -/
def Direction.group (d : Direction) (p : List Byte) (j : Nat) : List Byte :=
  slice p (d.size * j) (d.size * j + d.size)

theorem Direction.group_zero (d : Direction) (p : List Byte) : d.group p 0 = p.take d.size := slice_first p d.size

theorem Direction.group_succ (d : Direction) (p : List Byte) (j : Nat) :
    d.group p (j + 1) = d.group (p.drop d.size) j := slice_succ p d.size j

/-- The stream `t` has rejected a group after putting `out` and presenting `ws`. -/
structure RejectedAfter (s : Stream) (out : List Byte) (ws : List ReqWord) (t : Stream) : Prop where
  content : t.sink.content = s.sink.content ++ out
  presented : t.presented = s.presented ++ ws
  status : t.status = .opened ∨ t.status = .error .invalidSymbol

/-- The loop over more than `k` groups of which number `k` is the first that is rejected, on a sink that does not fail
before it. -/
theorem emitGroups_of_rejected {s : Stream} {k n : Nat} {p : List Byte} (hn : k < n)
    (hp : s.direction.size * k ≤ p.length)
    (hbefore : ∀ j, j < k → s.direction.rejects s.strict (z85ct (s.direction.request (s.direction.group p j))) = false)
    (hrejected : s.direction.rejects s.strict (z85ct (s.direction.request (s.direction.group p k))) = true)
    (hok : ∀ a ∈ s.sink.answers.take k, a = .ok) :
    ∃ t, s.emitGroups n p = (t, some .invalidSymbol) ∧
      RejectedAfter s (s.direction.bulk (p.take (s.direction.size * k)))
        ((List.range (k + 1)).map fun j => s.direction.request (s.direction.group p j)) t := by
  induction k generalizing s n p with
  | zero =>
    obtain ⟨n, rfl⟩ := Nat.exists_eq_add_one_of_ne_zero (Nat.ne_zero_of_lt hn)
    rw [Direction.group_zero] at hrejected
    refine ⟨_, emitGroups_succ_of_some (emit_of_rejected _ hrejected), ?_, ?_, strictFailed_status _⟩
    · simp
    · simp [Direction.group_zero]
  | succ k ih =>
    obtain ⟨n, rfl⟩ := Nat.exists_eq_add_one_of_ne_zero (Nat.ne_zero_of_lt hn)
    rw [Nat.mul_succ] at hp ⊢
    have hle : s.direction.size ≤ p.length := by omega
    have hfirst := hbefore 0 (Nat.succ_pos k)
    rw [Direction.group_zero] at hfirst
    obtain ⟨k', hemit, hcontent, hanswers⟩ := emit_of_ok s.direction.keep_size_ne_zero hfirst
      (fun a ha => hok a (List.take_subset_take_left _ (Nat.succ_le_succ (Nat.zero_le k)) ha))
    rw [Direction.take_keep_size_output] at hcontent
    obtain ⟨t, hloop, htcontent, htpresented, htstatus⟩ := ih
      (s := { s with presented := s.presented ++ [s.direction.request (p.take s.direction.size)], sink := k' })
      (p := p.drop s.direction.size) (Nat.lt_of_succ_lt_succ hn)
      (by rw [List.length_drop]; exact Nat.le_sub_of_add_le hp)
      (fun j hj => by rw [← Direction.group_succ]; exact hbefore (j + 1) (Nat.succ_lt_succ hj))
      (by rw [← Direction.group_succ]; exact hrejected)
      (fun a ha => hok a (by
        rw [Nat.add_comm, List.take_add, ← hanswers]
        exact List.mem_append_right _ ha))
    refine ⟨t, (emitGroups_succ_of_none hemit).trans hloop, ?_, ?_, htstatus⟩
    · rw [htcontent, hcontent, List.append_assoc,
        s.direction.bulk_of_le (s := p.take _) (by rw [List.length_take]; omega), List.take_take, List.drop_take,
        Nat.min_eq_left (Nat.le_add_left ..), Nat.add_sub_cancel]
    · rw [htpresented, List.range_succ_eq_map (n := k + 1), List.map_cons, List.map_map, Direction.group_zero,
        List.append_assoc, List.singleton_append]
      simp only [Function.comp_def, Nat.succ_eq_add_one, Direction.group_succ]

/-- A `write` of an open stream of whose whole groups number `k` is the first that is rejected, on a sink that does not
fail before it. -/
theorem write_of_rejected {s : Stream} (ho : s.status = .opened) (hc : s.closed = false) (hfits : CarryFits s)
    {p : List Byte} {k : Nat} (hk : s.direction.size * k + s.direction.size ≤ (s.carry ++ p).length)
    (hbefore : ∀ j, j < k →
      s.direction.rejects s.strict (z85ct (s.direction.request (s.direction.group (s.carry ++ p) j))) = false)
    (hrejected : s.direction.rejects s.strict (z85ct (s.direction.request (s.direction.group (s.carry ++ p) k))) = true)
    (hok : ∀ a ∈ s.sink.answers.take k, a = .ok) :
    (s.write p).2 = { count := rejectedWriteCount p.length, error := some .invalidSymbol } ∧
      RejectedAfter s (s.direction.bulk ((s.carry ++ p).take (s.direction.size * k)))
        ((List.range (k + 1)).map fun j => s.direction.request (s.direction.group (s.carry ++ p) j)) (s.write p).1 := by
  have hn : k < (s.carry ++ p).length / s.direction.size := by
    rw [Nat.lt_iff_add_one_le, Nat.le_div_iff_mul_le s.direction.size_pos, Nat.mul_comm, Nat.mul_succ]
    exact hk
  obtain ⟨t, hloop, ht⟩ := emitGroups_of_rejected (s := { s with carry := [] }) hn (Nat.le_of_add_right_le hk) hbefore
    hrejected hok
  have habsorb : s.absorb p = (t, some .invalidSymbol) := (absorb_eq_emitGroups s p hfits).trans hloop
  rw [write_of_open s p ho hc, habsorb]
  exact ⟨rfl, ht.content, ht.presented, ht.status⟩

/-- A `close` of an open stream whose padded last group is rejected. -/
theorem close_of_rejected {s : Stream} (ho : s.status = .opened) (hc : s.closed = false) (h0 : s.carry ≠ [])
    (hskip : ¬(s.direction.keep s.carry.length = 0 ∧ Config.skipsOneSymbolGroup))
    (hr : s.direction.rejects s.strict
      (z85ct (s.direction.request (padded s.direction.size s.direction.pad s.carry))) = true) :
    s.close =
      ({ s with
          carry := []
          closed := true
          presented := s.presented ++
            [s.direction.request (padded s.direction.size s.direction.pad s.carry)] }.strictFailed,
        some .invalidSymbol) := by
  rw [close_of_open ho hc, if_neg h0, Stream.flush]
  exact (if_neg hskip).trans (emit_of_rejected (s := { s with carry := [], closed := true }) _ hr)

end Sys2Proof.Machine
end

section
/-! The strict streaming decoder, and the streaming round trip (42_host_framing.md sections 6 and 7). -/

namespace Sys2Proof.Machine

/-- Settles O60: a strict decoder rejects what is flagged, and where nothing is, `STRICT` makes no difference. -/
theorem strictDecoderPutsNothingOfAFlaggedGroup : Obligations.StrictDecoderPutsNothingOfAFlaggedGroup := by
  intro s hd hs ho hc hfits
  obtain ⟨direction, strict, carry, status, closed, sink, presented⟩ := s
  obtain rfl : direction = .decoder := hd
  obtain rfl : strict = true := hs
  have hkeep (h0 : carry ≠ []) : Direction.decoder.keep carry.length = 0 ↔ carry.length = 1 :=
    keep_decoder_eq_zero_iff (mt List.length_eq_zero_iff.mp h0)
  intro permissive last
  refine ⟨?_, fun p h => ?_, fun h0 hmade hflag => ?_, fun h => ?_⟩
  · intro p k text request hk hbefore hflag hok
    obtain ⟨hresult, hcontent, hpresented, hstatus⟩ := write_of_rejected ho hc hfits hk hbefore hflag hok
    rw [decodeText_eq_bulk]
    exact ⟨hresult, hcontent, hpresented, hstatus⟩
  · refine write_withStrict true (s := permissive) ho hc hfits fun g hg => ?_
    obtain ⟨j, hj, rfl⟩ := (mem_wholeGroups_iff (Direction.size_pos _) _ g).mp hg
    exact h j hj
  · have hskip : ¬(Direction.decoder.keep carry.length = 0 ∧ Config.skipsOneSymbolGroup) := by
      rw [hkeep h0]
      rintro ⟨hone, hskips⟩
      rcases hmade with htwo | hnot
      · exact absurd hone (Nat.ne_of_gt htwo)
      · exact absurd (hskips.symm.trans hnot) (by decide)
    rw [close_of_rejected ho hc h0 hskip hflag]
    exact ⟨rfl, rfl, rfl, rfl, strictFailed_status _⟩
  · refine close_withStrict true (s := permissive) ho hc (or_iff_not_imp_left.mpr fun h0 => ?_)
    exact (h.resolve_left h0).imp_left fun hone => ⟨(hkeep h0).mpr hone.1, hone.2⟩

/-- Settles O57: the text put is the encoded bytes, which decode cleanly, so a strict decoder does what a permissive one
does, which is the bulk decoder's work. -/
theorem streamingRoundTrip : Obligations.StreamingRoundTrip := by
  intro strict strict' k k' ps qs hk hk' hempty hempty' hqs
  have hcontent : k.content = [] := by rw [Sink.content, hempty, List.flatten_nil]
  have hcontent' : k'.content = [] := by rw [Sink.content, hempty', List.flatten_nil]
  have htext : qs.flatten = Direction.encoder.bulk ps.flatten := by
    rw [hqs, (streamEncoderEqualsBulkEncode strict k ps hk).1, hcontent, List.nil_append, encodeBytes_eq_bulk]
  obtain ⟨hbulk, hunflagged⟩ := decodesCleanlyTo_encode ps.flatten
  rw [← htext] at hbulk hunflagged
  have hdecoder := unfailing_create_decoder hk'
  have hstrict : (Stream.create .decoder strict' k').run qs =
      ((Stream.create .decoder false k').run qs).withStrict strict' :=
    run_withStrict strict' hdecoder hunflagged
  calc ((Stream.create .decoder strict' k').run qs).sink.content
      = ((Stream.create .decoder false k').run qs).sink.content := by rw [hstrict]; rfl
    _ = k'.content ++ Direction.decoder.bulk qs.flatten := (run_of_unfailing hdecoder qs).1
    _ = ps.flatten := by rw [hcontent', hbulk, List.nil_append]

end Sys2Proof.Machine
end
